-- ==== Sys2Proof/Word.lean ====
section
/-! DEFINITION. The bit-vector types of the unit: a byte of a byte sequence, a 16-bit register
and the 32-bit command word (10_state.md R21, R25, R29, R32; 30_encoding.md R70). -/

namespace Sys2Proof

/-- One byte: an element of IMG or ARG_BYTES, and the width of XSIZE and YSIZE (R21, R22, R25). -/
abbrev Byte := BitVec 8

/-- A 16-bit register: STATUS, ARG_X, ARG_Y (R29, R32). -/
abbrev Half := BitVec 16

/-- The 32-bit command word (R70). -/
abbrev Word := BitVec 32

end Sys2Proof
end

