-- ==== Sys2Proof/Syntax.lean ====
section
/-! DEFINITION. The eight commands (30_encoding.md R74), one constructor per row of
spec/opcode_table.json. -/

namespace Sys2Proof

/-- The bit order PACK_DM selects with field M (R72): M = 0 LSB-first, M = 1 MSB-first. -/
inductive BitOrder where
  | lsbFirst
  | msbFirst
  deriving DecidableEq, Repr

/-- A command. The index of DOT_ROW and DOT_COL is the number IDX holds, 0..65535 (R73);
a larger number is ill-formed (WellFormed.lean). -/
inductive Instr where
  /-- NEW_ZERO (40_bitimage.md R103) -/
  | newZero
  /-- NEW_RAW (40_bitimage.md R104) -/
  | newRaw
  /-- DECODE_RASTER (41_raster_decode.md R121) -/
  | decodeRaster
  /-- PACK_DM.lsb and PACK_DM.msb (42_dotmatrix_pack.md R161) -/
  | packDm (m : BitOrder)
  /-- DOT_ROW (43_views.md R182) -/
  | dotRow (idx : Nat)
  /-- DOT_COL (43_views.md R184) -/
  | dotCol (idx : Nat)
  /-- DOT_MATRIX (43_views.md R186) -/
  | dotMatrix
  /-- EXPORT_DEF (44_export.md R201) -/
  | exportDef
  deriving DecidableEq, Repr

end Sys2Proof
end

