-- ==== Sys2Proof/WellFormed.lean ====
section
/-! DEFINITION. Which instruction terms a command word can hold (30_encoding.md R73): the one
operand with a range is the index. -/

namespace Sys2Proof

/-- The index of DOT_ROW and DOT_COL fits the 16-bit field IDX (R73, R79). -/
def Instr.wellFormed : Instr → Bool
  | .newZero => true
  | .newRaw => true
  | .decodeRaster => true
  | .packDm _ => true
  | .dotRow idx => decide (idx < 65536)
  | .dotCol idx => decide (idx < 65536)
  | .dotMatrix => true
  | .exportDef => true

/-- `i` can be encoded. -/
abbrev WellFormed (i : Instr) : Prop := i.wellFormed = true

end Sys2Proof
end

