-- ==== Sys2Proof/Decode.lean ====
section
/-! DEFINITION. Decoding a command word (30_encoding.md R70 to R77), total on all words and
rejecting by name; carrying the word as bytes (20_memory.md R54); and the encoder (R71, R74, R79). -/

namespace Sys2Proof

/-- Field OP, bits 7:0 (R71). -/
def opField (w : Word) : Byte := w.extractLsb' 0 8

/-- Field M, bit 8 (R71). -/
def mField (w : Word) : Bool := w.getLsbD 8

/-- Field RSV, bits 15:9 (R71). -/
def rsvField (w : Word) : BitVec 7 := w.extractLsb' 9 7

/-- Field IDX, bits 31:16 (R71). -/
def idxField (w : Word) : BitVec 16 := w.extractLsb' 16 16

/-- IDX read as an unsigned 16-bit integer, neither sign-extended nor scaled (R73). -/
def idxValue (w : Word) : Nat := (idxField w).toNat

/-- The operations of the opcode map (R74). -/
inductive Op where
  | newZero
  | newRaw
  | decodeRaster
  | packDm
  | dotRow
  | dotCol
  | dotMatrix
  | exportDef
  deriving DecidableEq, Repr

/-- The opcode of an operation (R74). -/
def Op.code : Op → Byte
  | .newZero => 0x01#8
  | .newRaw => 0x02#8
  | .decodeRaster => 0x03#8
  | .packDm => 0x04#8
  | .dotRow => 0x10#8
  | .dotCol => 0x11#8
  | .dotMatrix => 0x12#8
  | .exportDef => 0x20#8

/-- Every operation, in the order of R74. -/
def Op.all : List Op :=
  [.newZero, .newRaw, .decodeRaster, .packDm, .dotRow, .dotCol, .dotMatrix, .exportDef]

/-- The operation of an OP value, none for a reserved value (R74). -/
def opOfCode (c : Byte) : Option Op := Op.all.find? (fun o => o.code == c)

/-- Whether the operation uses field M (R74). -/
def Op.usesM : Op → Bool
  | .packDm => true
  | .newZero | .newRaw | .decodeRaster | .dotRow | .dotCol | .dotMatrix | .exportDef => false

/-- Whether the operation uses field IDX (R74). -/
def Op.usesIdx : Op → Bool
  | .dotRow | .dotCol => true
  | .newZero | .newRaw | .decodeRaster | .packDm | .dotMatrix | .exportDef => false

/-- M = 1 selects MSB-first, M = 0 LSB-first (R72). -/
def orderOfM (m : Bool) : BitOrder := if m then .msbFirst else .lsbFirst

/-- The value of M that states a bit order (R72). -/
def mOfOrder : BitOrder → Bool
  | .lsbFirst => false
  | .msbFirst => true

/-- The instruction of an operation with its immediates (R78). -/
def Op.instr (o : Op) (m : Bool) (idx : Nat) : Instr :=
  match o with
  | .newZero => .newZero
  | .newRaw => .newRaw
  | .decodeRaster => .decodeRaster
  | .packDm => .packDm (orderOfM m)
  | .dotRow => .dotRow idx
  | .dotCol => .dotCol idx
  | .dotMatrix => .dotMatrix
  | .exportDef => .exportDef

/-- Why a word is illegal: the checks of R76, in their order. -/
inductive IllegalWord where
  /-- OP is not in the opcode map -/
  | unknownOp
  /-- RSV is not zero -/
  | rsvSet
  /-- M is set on an operation other than PACK_DM -/
  | mSet
  /-- IDX is not zero on an operation other than DOT_ROW and DOT_COL -/
  | idxSet
  deriving DecidableEq, Repr

/-- The detail code of IllegalCommand (R224). -/
def IllegalWord.detail : IllegalWord → Byte
  | .unknownOp => 1#8
  | .rsvSet => 2#8
  | .mSet => 3#8
  | .idxSet => 4#8

/-- Decoding, the checks in the order of R76 and R77. -/
def decode (w : Word) : Except IllegalWord Instr :=
  match opOfCode (opField w) with
  | none => .error .unknownOp
  | some o =>
    if rsvField w ≠ 0#7 then .error .rsvSet
    else if mField w && !o.usesM then .error .mSet
    else if idxField w ≠ 0#16 ∧ o.usesIdx = false then .error .idxSet
    else .ok (o.instr (mField w) (idxValue w))

/-- The word that four bytes carry, low byte first (R54); none for another number of bytes. -/
def wordOfBytes : List Byte → Option Word
  | [b0, b1, b2, b3] =>
    some (b0.setWidth 32 ||| (b1.setWidth 32 <<< 8) ||| (b2.setWidth 32 <<< 16) |||
      (b3.setWidth 32 <<< 24))
  | _ => none

/-- The four bytes that carry a word, low byte first (R54). -/
def bytesOfWord (w : Word) : List Byte :=
  [w.extractLsb' 0 8, w.extractLsb' 8 8, w.extractLsb' 16 8, w.extractLsb' 24 8]

/-- Decoding from bytes: none where the bytes are no word or the word is illegal (R54, R76). -/
def decodeBytes (bs : List Byte) : Option Instr :=
  (wordOfBytes bs).bind (fun w => (decode w).toOption)

/-- The operation of an instruction (R74). -/
def Instr.op : Instr → Op
  | .newZero => .newZero
  | .newRaw => .newRaw
  | .decodeRaster => .decodeRaster
  | .packDm _ => .packDm
  | .dotRow _ => .dotRow
  | .dotCol _ => .dotCol
  | .dotMatrix => .dotMatrix
  | .exportDef => .exportDef

/-- Field M of an instruction's word: 0 for every operation other than PACK_DM (R71). -/
def Instr.mBit : Instr → Bool
  | .packDm m => mOfOrder m
  | .newZero | .newRaw | .decodeRaster | .dotRow _ | .dotCol _ | .dotMatrix | .exportDef => false

/-- Field IDX of an instruction's word: 0 for every operation other than DOT_ROW and DOT_COL (R71). -/
def Instr.idx : Instr → Nat
  | .dotRow idx | .dotCol idx => idx
  | .newZero | .newRaw | .decodeRaster | .packDm _ | .dotMatrix | .exportDef => 0

/-- A word laid out from its fields, RSV zero: OP at bit 0, M at bit 8, IDX at bit 16 (R71). -/
def packWord (idx : BitVec 16) (m : Bool) (op : Byte) : Word :=
  op.setWidth 32 ||| ((BitVec.ofBool m).setWidth 32 <<< 8) ||| (idx.setWidth 32 <<< 16)

/-- The command word of an instruction (R71, R74). -/
def encode (i : Instr) : Word := packWord (BitVec.ofNat 16 i.idx) i.mBit i.op.code

/-- What the decoder reads from an instruction whose first `nbits` bits are `w` and whose bits above
are 0, the word carried as R54 says. A command is one 32-bit word: more than 32 bits are no command (R70). -/
def decodeTableWord (nbits w : Nat) : Option Instr :=
  if nbits ≤ 32 then decodeBytes (bytesOfWord (BitVec.ofNat 32 (w % 2 ^ nbits))) else none

end Sys2Proof
end

