-- ==== Sys2Proof/Machine/State.lean ====
section
/-! DEFINITION. The unit's state (10_state.md R20), the values of RESULT (R33), the error kinds
(60_exceptions.md R220), the host's actions (70_reset_and_hazards.md R271), the reasons a step can
stop, and reset (R38). -/

namespace Sys2Proof.Machine

/-- The result register's four tagged values (R33). -/
inductive Result where
  /-- NONE: no result -/
  | none
  /-- BITS(s), written by DOT_ROW and DOT_COL -/
  | bits (s : List Bool)
  /-- COLUMNS(m), written by DOT_MATRIX -/
  | columns (m : List (List Bool))
  /-- BYTES(s), written by EXPORT_DEF -/
  | bytes (s : List Byte)
  deriving DecidableEq, Repr

/-- The error kinds (R220); KIND 0 is no error and is not listed. -/
inductive ErrorKind where
  | dimensionError
  | formatError
  | indexError
  | illegalCommand
  | noImage
  deriving DecidableEq, Repr

/-- An error K(d): its kind and its detail code (R16, R221 to R225). -/
structure Err where
  kind : ErrorKind
  detail : Byte
  deriving DecidableEq, Repr

/-- A new image before it is committed: the declared dimensions and the packed bytes (R101). -/
structure Image where
  x : Nat
  y : Nat
  bytes : List Byte
  deriving DecidableEq, Repr

/-- An item of state the host may read (R39); IMG is read one byte at a time (R27). -/
inductive HostItem where
  | xsize
  | ysize
  | valid
  | imgByte (i : Nat)
  | status
  | result
  | argX
  | argY
  | argBytes
  | argDm
  deriving DecidableEq, Repr

/-- The value a host read hands back (R271). -/
inductive HostValue where
  | byte (b : Byte)
  | flag (b : Bool)
  | half (v : Half)
  | result (r : Result)
  | bytes (s : List Byte)
  | columns (m : List (List Bool))
  deriving DecidableEq, Repr

/-- A host action (R271). There is no action that writes a read-only item, that overlaps another or
that resets the unit during a command: the spec gives the host no such move (R39, R271). -/
inductive HostAction where
  /-- operand write ARG_X := v -/
  | writeArgX (v : Half)
  /-- operand write ARG_Y := v -/
  | writeArgY (v : Half)
  /-- operand write ARG_BYTES := s -/
  | writeArgBytes (s : List Byte)
  /-- operand write ARG_DM := m -/
  | writeArgDm (m : List (List Bool))
  /-- one 32-bit command word -/
  | command (w : Word)
  /-- state read -/
  | read (item : HostItem)
  /-- reset, between commands -/
  | reset
  deriving DecidableEq, Repr

/-- The machine never faults: every error of the spec ends its command in a next state (R230, R233),
so there is no fault to name. -/
inductive Fault where
  deriving DecidableEq, Repr

/-- Why a step is refused. No command raises one. -/
inductive Refusal where
  /-- Raised by `exec` for an instruction with no meaning; no arm raises it. Safe. -/
  | notModelled (mnemonic : String)
  /-- Raised by the host action that writes ARG_BYTES with more than ARG_BYTES_CAP bytes (R31). Safe. -/
  | argBytesOverCapacity (length : Nat)
  /-- Raised by the host action that writes ARG_DM with more than DM_MAX_COLS columns or a column longer
  than DM_MAX_LEN (R31). Safe. -/
  | argDmOverCapacity (columns : Nat)
  /-- Raised by the host action that reads IMG[i] for i at or above len(IMG) (R27). Safe. -/
  | imgReadOutside (index : Nat)
  deriving DecidableEq, Repr

/-- The state. The first ten fields are the unit's, exactly the items of R20. The last two are the
MODEL's own and belong to the host side of the interface (log entry 3): no command reads them. -/
structure State where
  /-- XSIZE, the declared width in bytes (R21) -/
  xsize : Byte
  /-- YSIZE, the declared height in bytes (R22) -/
  ysize : Byte
  /-- VALID, whether an image is held (R23) -/
  valid : Bool
  /-- IMG, the packed image, column-major (R25) -/
  img : List Byte
  /-- STATUS: KIND in bits 3:0, DETAIL in bits 15:8 (R32) -/
  status : Half
  /-- RESULT (R33) -/
  result : Result
  /-- ARG_X (R29) -/
  argX : Half
  /-- ARG_Y (R29) -/
  argY : Half
  /-- ARG_BYTES (R28) -/
  argBytes : List Byte
  /-- ARG_DM, a sequence of columns, each top to bottom (R30) -/
  argDm : List (List Bool)
  /-- the host actions not yet performed, next first (R270, R271) -/
  inbox : List HostAction
  /-- the values handed back to the host's reads, oldest first (R271) -/
  outbox : List HostValue
  deriving DecidableEq, Repr

/-- The state after reset (R38, R260), with no host action waiting and nothing handed back. -/
def State.reset : State where
  xsize := 0#8
  ysize := 0#8
  valid := false
  img := []
  status := 0#16
  result := .none
  argX := 0#16
  argY := 0#16
  argBytes := []
  argDm := []
  inbox := []
  outbox := []

end Sys2Proof.Machine
end

