-- ==== Sys2Proof/Machine/Flags.lean ====
section
/-! DEFINITION. STATUS, the unit's only status (10_state.md R32, R34): its fields and the value an
error writes (60_exceptions.md R220 to R226). -/

namespace Sys2Proof.Machine

/-- The KIND of an error kind (R220). -/
def ErrorKind.code : ErrorKind → BitVec 4
  | .dimensionError => 1#4
  | .formatError => 2#4
  | .indexError => 3#4
  | .illegalCommand => 4#4
  | .noImage => 5#4

/-- The STATUS an error writes, (d << 8) | k (R226). -/
def statusOf (e : Err) : Half :=
  (e.detail.setWidth 16 <<< 8) ||| e.kind.code.setWidth 16

/-- The STATUS success writes (R226, R231). -/
def statusOk : Half := 0x0000#16

/-- STATUS.KIND, bits 3:0 (R32). -/
def kindField (v : Half) : BitVec 4 := v.extractLsb' 0 4

/-- The reserved field of STATUS, bits 7:4, which reads 0 (R32). -/
def reservedField (v : Half) : BitVec 4 := v.extractLsb' 4 4

/-- STATUS.DETAIL, bits 15:8 (R32). -/
def detailField (v : Half) : Byte := v.extractLsb' 8 8

/-- DimensionError(d) (R221). -/
def dimensionError (d : Byte) : Err := ⟨.dimensionError, d⟩

/-- FormatError(d) (R222). -/
def formatError (d : Byte) : Err := ⟨.formatError, d⟩

/-- IndexError(d) (R223). -/
def indexError (d : Byte) : Err := ⟨.indexError, d⟩

/-- IllegalCommand(d) (R224). -/
def illegalCommand (d : Byte) : Err := ⟨.illegalCommand, d⟩

/-- NoImage(d) (R225). -/
def noImage (d : Byte) : Err := ⟨.noImage, d⟩

end Sys2Proof.Machine
end

