-- ==== Sys2Proof/Config.lean ====
section
/-! DEFINITION. What is fixed for the unit: the dimension limits (00_scope.md R7, R8), the raster
container's constants (R11), the three open capacity parameters (R10, R31) and the free values. -/

namespace Sys2Proof.Config

/-- XSIZE_MIN (R7). -/
abbrev xsizeMin : Nat := 1

/-- XSIZE_MAX (R7). -/
abbrev xsizeMax : Nat := 255

/-- YSIZE_MIN (R7). -/
abbrev ysizeMin : Nat := 1

/-- YSIZE_MAX (R7). -/
abbrev ysizeMax : Nat := 48

/-- AREA_MAX, the limit of xSize * ySize (R7). -/
abbrev areaMax : Nat := 1536

/-- IMG_CAP, the length of the largest packed image (R8). -/
abbrev imgCap : Nat := 8 * areaMax

/-- The first signature byte, ASCII B (R11; its numeric value is general knowledge, G1). -/
abbrev signature0 : Byte := 0x42#8

/-- The second signature byte, ASCII M (R11, G1). -/
abbrev signature1 : Byte := 0x4D#8

/-- Offset of the 4-byte pixel-data-offset field (R11). -/
abbrev offsField : Nat := 10

/-- Offset of the 4-byte width field (R11). -/
abbrev widthField : Nat := 18

/-- Offset of the 4-byte height field (R11). -/
abbrev heightField : Nat := 22

/-- Offset of the 2-byte bit-depth field (R11). -/
abbrev depthField : Nat := 28

/-- Offset of the 4-byte compression field (R11). -/
abbrev compressionField : Nat := 30

/-- The shortest container whose header fields can all be read: the last ends at byte 33 (R123). -/
abbrev headerBytes : Nat := 34

/-- FREE VALUE (no body): by how much ARG_BYTES_CAP exceeds the least the model takes it to be. -/
opaque argBytesExtra : Nat

/-- FREE VALUE (no body): by how much DM_MAX_COLS exceeds 2048. -/
opaque dmColsExtra : Nat

/-- FREE VALUE (no body): by how much DM_MAX_LEN exceeds 392. -/
opaque dmLenExtra : Nat

/-- ARG_BYTES_CAP, the largest byte operand: an OPEN parameter (R10, I12).
DESIGN CHOICE (log entry 1, unsafe): at least 12350, the longest operand of the spec's vectors (V-D22). -/
def argBytesCap : Nat := argBytesExtra + 12350

/-- DM_MAX_COLS, the most columns of a dot-matrix operand: an OPEN parameter (R10, I12).
DESIGN CHOICE (log entry 1, unsafe): at least 2048, as R31 asks of a model that exhibits every error. -/
def dmMaxCols : Nat := dmColsExtra + 2048

/-- DM_MAX_LEN, the longest column of a dot-matrix operand: an OPEN parameter (R10, I12).
DESIGN CHOICE (log entry 1, unsafe): at least 392, as R31 asks of a model that exhibits every error. -/
def dmMaxLen : Nat := dmLenExtra + 392

/-- FREE VALUE (no body): what physical storage at an index past the end of a byte sequence holds
("any value", I11). No command reads it from a state that satisfies R24 (log entry 2, safe). -/
opaque absentByte : Nat → Byte

/-- FREE VALUE (no body): the pixel at (column, row) of a dot matrix that has no such element.
PACK_DM's structural checks keep every read inside ARG_DM (log entry 2, safe). -/
opaque absentBit : Nat → Nat → Bool

end Sys2Proof.Config
end

