-- ==== Sys2Proof/Machine/Operands.lean ====
section
/-! DEFINITION. Reading the index spaces (20_memory.md R50) and the integer and bit primitives of
00_scope.md R12 to R15: bytes, MemRead, the raster container's fields, dot-matrix elements, folding
eight bits into a byte, and the packed column-major layout. -/

namespace Sys2Proof.Machine

/-- ceil(a/8) (R12). -/
def ceilDiv8 (a : Nat) : Nat := (a + 7) / 8

/-- Element i of a byte sequence. Every rule checks i before it reads (R15, R50);
past the end the value is free (I11). -/
def byteAt (s : List Byte) (i : Nat) : Byte := s[i]?.getD (Config.absentByte i)

/-- MemRead(addr, n) over a byte operand: the n-byte little-endian unsigned integer (R15, R51). -/
def memRead (s : List Byte) (addr n : Nat) : Nat :=
  ((List.range n).map (fun k => (byteAt s (addr + k)).toNat * 256 ^ k)).sum

/-- sext_32(v), v read as two's complement (R12). -/
def sext32 (v : Nat) : Int := (BitVec.ofNat 32 v).toInt

/-- The container's pixel-data offset, unsigned 32-bit (R55, R120). -/
def rasterOffs (s : List Byte) : Nat := memRead s Config.offsField 4

/-- The container's width in pixels, signed 32-bit (R55, R120). -/
def rasterWidth (s : List Byte) : Int := sext32 (memRead s Config.widthField 4)

/-- The container's height in pixels, signed 32-bit (R55, R120). -/
def rasterHeight (s : List Byte) : Int := sext32 (memRead s Config.heightField 4)

/-- The container's bit depth, unsigned 16-bit (R55, R120). -/
def rasterDepth (s : List Byte) : Nat := memRead s Config.depthField 2

/-- The container's compression field, unsigned 32-bit (R55, R120). -/
def rasterCompression (s : List Byte) : Nat := memRead s Config.compressionField 4

/-- The stored row length in bytes, ceil(w/8), for a width w >= 1 (R127). -/
def rasterRowBytes (s : List Byte) : Nat := ceilDiv8 (rasterWidth s).toNat

/-- The number of image rows, |h| computed exactly (R126). -/
def rasterRows (s : List Byte) : Nat := (rasterHeight s).natAbs

/-- The row stride: the row length padded up to a multiple of 4 bytes (R57, R127). -/
def rasterStride (s : List Byte) : Nat := 4 * ((rasterRowBytes s + 3) / 4)

/-- The stored row that holds image row r: bottom-up when h > 0, top-down when h < 0 (R128). -/
def storedRow (s : List Byte) (r : Nat) : Nat :=
  if rasterHeight s > 0 then rasterRows s - 1 - r else r

/-- The bit of a stored row byte that holds pixel column c: bit 7 is the leftmost of its 8
(R53; log entry 4). -/
def rasterBitIndex (c : Nat) : Nat := 7 - c % 8

/-- P(r, c): a stored pixel, and 1 in a filler row (R121, R129, R130). -/
def rasterPixel (s : List Byte) (r c : Nat) : Bool :=
  if r < rasterRows s then
    (byteAt s (rasterOffs s + storedRow s r * rasterStride s + c / 8)).getLsbD (rasterBitIndex c)
  else true

/-- Element r of column c of a dot matrix (R30, R160). PACK_DM's checks keep every read inside;
elsewhere the value is free. -/
def dmBit (d : List (List Bool)) (c r : Nat) : Bool :=
  (d[c]?.bind (fun col => col[r]?)).getD (Config.absentBit c r)

/-- The byte v with v[k] = f k for k in 0..7 (R12). -/
def byteOfBits (f : Nat → Bool) : Byte := BitVec.ofFnLE (fun k : Fin 8 => f k.val)

/-- Fold(t, m): bit k, or bit 7 - k, of the byte is t[k] (R161, R164). -/
def foldBits (m : BitOrder) (t : Nat → Bool) : Byte :=
  match m with
  | .lsbFirst => byteOfBits t
  | .msbFirst => byteOfBits (fun k => t (7 - k))

/-- The packed bytes of a pixel function over `cols` columns and `bands` bands, column by column and
top band to bottom band, so that column c and band b land at index c * bands + b (R25, R131, R165). -/
def packPixels (m : BitOrder) (p : Nat → Nat → Bool) (cols bands : Nat) : List Byte :=
  (List.range cols).flatMap (fun c =>
    (List.range bands).map (fun b => foldBits m (fun k => p (8 * b + k) c)))

/-- Every byte replaced by its complement (R132). -/
def invertBytes (s : List Byte) : List Byte := s.map (fun b => b ^^^ 0xFF#8)

/-- idx(c, b), the index of the byte of pixel column c and band b (R25). -/
def imgIndex (s : State) (c b : Nat) : Nat := c * s.ysize.toNat + b

/-- Px(r, c), the pixel at row r and column c, read MSB-first (R180). -/
def px (s : State) (r c : Nat) : Bool :=
  (byteAt s.img (imgIndex s c (r / 8))).getLsbD (7 - r % 8)

/-- W_PX, the pixel width 8 * xSize (R9). -/
def pixelWidth (s : State) : Nat := 8 * s.xsize.toNat

/-- H_PX, the pixel height 8 * ySize (R9). -/
def pixelHeight (s : State) : Nat := 8 * s.ysize.toNat

end Sys2Proof.Machine
end

