-- ==== Sys2Proof/Machine/Ops.lean ====
section
/-! DEFINITION. The operations every command shares: ending in an error (60_exceptions.md R230),
ending in success (R231), the dimension check and the commit of a new image (40_bitimage.md R100,
R101), the accessors' image check (43_views.md R181); and the host's operand writes and state reads
(10_state.md R27, R31, R39). -/

namespace Sys2Proof.Machine

/-- The outcome of one step of this machine. -/
abbrev StepOutcome := Host.Outcome State Fault Refusal

/-- The state an error leaves: STATUS and RESULT written, everything else as it was (R230). -/
def State.failed (e : Err) (s : State) : State :=
  { s with status := statusOf e, result := .none }

/-- The state success leaves, with RESULT = r (R231). -/
def State.completed (r : Result) (s : State) : State :=
  { s with status := statusOk, result := r }

/-- The state a commit leaves: the image replaced whole, then success without a result (R26, R101). -/
def State.committed (im : Image) (s : State) : State :=
  { s with
    xsize := BitVec.ofNat 8 im.x
    ysize := BitVec.ofNat 8 im.y
    valid := true
    img := im.bytes
    status := statusOk
    result := .none }

/-- `raise K(d)`: the unit's only trap. It saves no program counter, changes no mode and transfers
control nowhere (R16, R230, R233). -/
def raise (e : Err) (s : State) : StepOutcome := .next (s.failed e)

/-- `complete(r)` (R17, R231). There is no return from a trap, because there is no trap (R234). -/
def complete (r : Result) (s : State) : StepOutcome := .next (s.completed r)

/-- `Commit(x, y, s)`, the only write of an image (R101). -/
def commit (im : Image) (s : State) : StepOutcome := .next (s.committed im)

/-- CheckDims(x, y): the first check that fails, x, then y, then the exact product (R100). -/
def checkDims (x y : Nat) : Option Err :=
  if x < Config.xsizeMin ∨ x > Config.xsizeMax then some (dimensionError 1#8)
  else if y < Config.ysizeMin ∨ y > Config.ysizeMax then some (dimensionError 2#8)
  else if x * y > Config.areaMax then some (dimensionError 3#8)
  else none

/-- An image whose checks found no error, or the first error they found: validation precedes the image,
and a command reports one error (R37, R232). Checks in sequence are joined by `Option.or`. -/
def validated (firstError : Option Err) (im : Image) : Except Err Image :=
  match firstError with
  | some e => .error e
  | none => .ok im

/-- The end of a construction: the image it computed is committed, or its error raised. A construction
runs whatever VALID is (R101, R102). -/
def construct (r : Except Err Image) (s : State) : StepOutcome :=
  match r with
  | .ok im => commit im s
  | .error e => raise e s

/-- The end of an accessor or export: NoImage(1) when no image is held, before any other check (R181);
otherwise the result it computed, or its error. -/
def access (r : Except Err Result) (s : State) : StepOutcome :=
  if s.valid then
    match r with
    | .ok v => complete v s
    | .error e => raise e s
  else raise (noImage 1#8) s

/-- The dot matrix is within DM_MAX_COLS and DM_MAX_LEN (R30, R31). -/
abbrev dmFits (m : List (List Bool)) : Prop :=
  m.length ≤ Config.dmMaxCols ∧ ∀ col ∈ m, col.length ≤ Config.dmMaxLen

/-- Host write ARG_X := v (R29, R39). -/
def hostWriteArgX (v : Half) (s : State) : StepOutcome := .next { s with argX := v }

/-- Host write ARG_Y := v (R29, R39). -/
def hostWriteArgY (v : Half) (s : State) : StepOutcome := .next { s with argY := v }

/-- Host write ARG_BYTES := b, refused beyond ARG_BYTES_CAP (R28, R31). -/
def hostWriteArgBytes (b : List Byte) (s : State) : StepOutcome :=
  if b.length ≤ Config.argBytesCap then .next { s with argBytes := b }
  else .refused (.argBytesOverCapacity b.length)

/-- Host write ARG_DM := m, refused beyond DM_MAX_COLS or DM_MAX_LEN (R30, R31). -/
def hostWriteArgDm (m : List (List Bool)) (s : State) : StepOutcome :=
  if dmFits m then .next { s with argDm := m }
  else .refused (.argDmOverCapacity m.length)

/-- The value of an item of state; a read of IMG[i] with i at or above len(IMG) is refused (R27, R39). -/
def hostValue (item : HostItem) (s : State) : Except Refusal HostValue :=
  match item with
  | .xsize => .ok (.byte s.xsize)
  | .ysize => .ok (.byte s.ysize)
  | .valid => .ok (.flag s.valid)
  | .imgByte i =>
    match s.img[i]? with
    | some b => .ok (.byte b)
    | none => .error (.imgReadOutside i)
  | .status => .ok (.half s.status)
  | .result => .ok (.result s.result)
  | .argX => .ok (.half s.argX)
  | .argY => .ok (.half s.argY)
  | .argBytes => .ok (.bytes s.argBytes)
  | .argDm => .ok (.columns s.argDm)

/-- Host read: the value is handed back and nothing of the unit changes (R60, R271). -/
def hostRead (item : HostItem) (s : State) : StepOutcome :=
  match hostValue item s with
  | .ok v => .next { s with outbox := s.outbox ++ [v] }
  | .error e => .refused e

/-- Reset: every item of R20 to its reset value (R260). What the host has not yet done and what was
handed back to it are the host's, and stay. -/
def hostReset (s : State) : StepOutcome :=
  .next { State.reset with inbox := s.inbox, outbox := s.outbox }

end Sys2Proof.Machine
end

