-- ==== Sys2Proof/Machine/BitImage.lean ====
section
/-! DEFINITION. Construction from explicit dimensions: NEW_ZERO and NEW_RAW (40_bitimage.md R103, R104). -/

namespace Sys2Proof.Machine

/-- The zero-filled image of the requested size, or the first dimension error (R103). -/
def zeroImage (x y : Nat) : Except Err Image :=
  validated (checkDims x y) ⟨x, y, List.replicate (8 * x * y) 0x00#8⟩

/-- FormatError(6) when the byte count is not 8 * x * y (R104). -/
def rawLengthError (x y : Nat) (bytes : List Byte) : Option Err :=
  if bytes.length ≠ 8 * x * y then some (formatError 6#8) else none

/-- The image of the given raw bytes, stored verbatim; dimensions are checked before the length (R104). -/
def rawImage (x y : Nat) (bytes : List Byte) : Except Err Image :=
  validated ((checkDims x y).or (rawLengthError x y bytes)) ⟨x, y, bytes⟩

/-- NEW_ZERO (R103). -/
def execNewZero (s : State) : StepOutcome :=
  construct (zeroImage s.argX.toNat s.argY.toNat) s

/-- NEW_RAW (R104). -/
def execNewRaw (s : State) : StepOutcome :=
  construct (rawImage s.argX.toNat s.argY.toNat s.argBytes) s

end Sys2Proof.Machine
end

