-- ==== Sys2Proof/Machine/DotMatrix.lean ====
section
/-! DEFINITION. PACK_DM: packing a boolean dot matrix with a selected bit order
(42_dotmatrix_pack.md R161 to R165; 90_conflicts.md C1, C2). -/

namespace Sys2Proof.Machine

/-- L, the length of column 0; no column, no length (R161). -/
def dmLength : List (List Bool) → Nat
  | [] => 0
  | col :: _ => col.length

/-- The structural checks and the empty matrix, in the order of R161 (R162, R163). -/
def dmStructure (d : List (List Bool)) : Option Err :=
  if ∃ col ∈ d, col.length ≠ dmLength d then some (formatError 7#8)
  else if dmLength d % 8 ≠ 0 then some (formatError 8#8)
  else if d.length % 8 ≠ 0 then some (formatError 9#8)
  else if d.length = 0 then some (dimensionError 1#8)
  else none

/-- The packed image of a dot matrix, or the first check that fails (R161). -/
def dmImage (m : BitOrder) (d : List (List Bool)) : Except Err Image :=
  validated ((dmStructure d).or (checkDims (d.length / 8) (dmLength d / 8)))
    ⟨d.length / 8, dmLength d / 8,
      packPixels m (fun r c => dmBit d c r) d.length (dmLength d / 8)⟩

/-- PACK_DM with bit order m (R161). -/
def execPackDm (m : BitOrder) (s : State) : StepOutcome := construct (dmImage m s.argDm) s

end Sys2Proof.Machine
end

