-- ==== Sys2Proof/Machine/Export.lean ====
section
/-! DEFINITION. EXPORT_DEF: the bytes of the volatile bit-image definition (44_export.md R200, R201). -/

namespace Sys2Proof.Machine

/-- XSIZE, YSIZE and the image bytes verbatim (R201). -/
def exportBytes (s : State) : List Byte := [s.xsize, s.ysize] ++ s.img

/-- EXPORT_DEF (R201). -/
def execExportDef (s : State) : StepOutcome := access (.ok (.bytes (exportBytes s))) s

end Sys2Proof.Machine
end

