-- ==== Sys2Proof/Machine/Raster.lean ====
section
/-! DEFINITION. DECODE_RASTER: validating, extracting, packing and inverting a 1-bit raster container
(41_raster_decode.md R121 to R134). -/

namespace Sys2Proof.Machine

/-- The inverted packed image of a container's pixels (R131, R132). -/
def rasterBytes (s : List Byte) : List Byte :=
  invertBytes
    (packPixels .msbFirst (rasterPixel s) (8 * rasterRowBytes s) (ceilDiv8 (rasterRows s)))

/-- The signature, header, depth and compression checks, in the order of R121 (R122 to R125). -/
def rasterHeaderError (s : List Byte) : Option Err :=
  if s.length < 2 ∨ byteAt s 0 ≠ Config.signature0 ∨ byteAt s 1 ≠ Config.signature1 then
    some (formatError 1#8)
  else if s.length < Config.headerBytes then some (formatError 4#8)
  else if rasterDepth s ≠ 1 then some (formatError 2#8)
  else if rasterCompression s ≠ 0 then some (formatError 3#8)
  else none

/-- One past the last byte DECODE_RASTER reads; the padding after the last row need not be present (R127). -/
def rasterEnd (s : List Byte) : Nat :=
  rasterOffs s + (rasterRows s - 1) * rasterStride s + rasterRowBytes s

/-- DimensionError(1) when the width is 0 or less (R126). -/
def rasterWidthError (s : List Byte) : Option Err :=
  if rasterWidth s ≤ 0 then some (dimensionError 1#8) else none

/-- FormatError(5) when the last byte to be read lies outside ARG_BYTES (R127). -/
def rasterBoundError (s : List Byte) : Option Err :=
  if rasterEnd s > s.length then some (formatError 5#8) else none

/-- The first failing check, in the order of R121: header, width, dimensions, pixel-data bound. -/
def rasterError (s : List Byte) : Option Err :=
  (rasterHeaderError s).or ((rasterWidthError s).or
    ((checkDims (rasterRowBytes s) (ceilDiv8 (rasterRows s))).or (rasterBoundError s)))

/-- The container's image, or the first check that fails (R121). -/
def rasterImage (s : List Byte) : Except Err Image :=
  validated (rasterError s) ⟨rasterRowBytes s, ceilDiv8 (rasterRows s), rasterBytes s⟩

/-- DECODE_RASTER (R121). -/
def execDecodeRaster (s : State) : StepOutcome := construct (rasterImage s.argBytes) s

end Sys2Proof.Machine
end

