-- ==== Sys2Proof/Machine/Views.lean ====
section
/-! DEFINITION. The accessors DOT_ROW, DOT_COL and DOT_MATRIX (43_views.md R180 to R188). -/

namespace Sys2Proof.Machine

/-- Row r across all columns (R182). -/
def rowBits (s : State) (r : Nat) : List Bool :=
  (List.range (pixelWidth s)).map (fun c => px s r c)

/-- Column c from top to bottom (R184). -/
def colBits (s : State) (c : Nat) : List Bool :=
  (List.range (pixelHeight s)).map (fun r => px s r c)

/-- Every column (R186). -/
def matrixColumns (s : State) : List (List Bool) :=
  (List.range (pixelWidth s)).map (fun c => colBits s c)

/-- DOT_ROW's result, or IndexError(1) (R182). -/
def dotRowResult (r : Nat) (s : State) : Except Err Result :=
  if r ≥ pixelHeight s then .error (indexError 1#8) else .ok (.bits (rowBits s r))

/-- DOT_COL's result, or IndexError(2) (R184). -/
def dotColResult (c : Nat) (s : State) : Except Err Result :=
  if c ≥ pixelWidth s then .error (indexError 2#8) else .ok (.bits (colBits s c))

/-- DOT_ROW (R182). -/
def execDotRow (idx : Nat) (s : State) : StepOutcome := access (dotRowResult idx s) s

/-- DOT_COL (R184). -/
def execDotCol (idx : Nat) (s : State) : StepOutcome := access (dotColResult idx s) s

/-- DOT_MATRIX (R186). -/
def execDotMatrix (s : State) : StepOutcome := access (.ok (.columns (matrixColumns s))) s

end Sys2Proof.Machine
end

