-- ==== Sys2Proof/Machine/Dispatch.lean ====
section
/-! DEFINITION. The meaning of each command (30_encoding.md R74). -/

namespace Sys2Proof.Machine

def exec (i : Instr) (s : State) : Host.Outcome State Fault Refusal :=
  match i with
  | .newZero => Sys2Proof.Machine.execNewZero s
  | .newRaw => Sys2Proof.Machine.execNewRaw s
  | .decodeRaster => Sys2Proof.Machine.execDecodeRaster s
  | .packDm m => Sys2Proof.Machine.execPackDm m s
  | .dotRow idx => Sys2Proof.Machine.execDotRow idx s
  | .dotCol idx => Sys2Proof.Machine.execDotCol idx s
  | .dotMatrix => Sys2Proof.Machine.execDotMatrix s
  | .exportDef => Sys2Proof.Machine.execExportDef s

end Sys2Proof.Machine
end

