-- ==== Sys2Proof/Machine/HostPort.lean ====
section
/-! DEFINITION. Performing one host action (70_reset_and_hazards.md R270, R271): a command word is
decoded and run, an operand written, an item read, or the unit reset. -/

namespace Sys2Proof.Machine

/-- One command word: an illegal word raises IllegalCommand before any operand is read (R76, R232);
a legal one runs its instruction to completion (R270). -/
def runWord (w : Word) (s : State) : StepOutcome :=
  match decode w with
  | .error e => raise (illegalCommand e.detail) s
  | .ok i => exec i s

/-- One host action (R271). -/
def performAction (a : HostAction) (s : State) : StepOutcome :=
  match a with
  | .writeArgX v => hostWriteArgX v s
  | .writeArgY v => hostWriteArgY v s
  | .writeArgBytes b => hostWriteArgBytes b s
  | .writeArgDm m => hostWriteArgDm m s
  | .command w => runWord w s
  | .read item => hostRead item s
  | .reset => hostReset s

/-- The next host action taken from the inbox and performed; with none waiting the unit is idle and
keeps all state (R272). -/
def takeAction (s : State) : StepOutcome :=
  match s.inbox with
  | [] => .next s
  | a :: rest => performAction a { s with inbox := rest }

end Sys2Proof.Machine
end

