-- ==== Sys2Proof/Machine/Step.lean ====
section
/-! DEFINITION. One step: one host action, each command one step (70_reset_and_hazards.md R270, R277). -/

namespace Sys2Proof.Machine

/-- One step of the host and unit pair (R63, R270). -/
def step (s : State) : Host.Outcome State Fault Refusal := takeAction s

/-- The state in which the host's next action is the command word whose first `nbits` bits are `w` and
whose bits above are 0 (log entry 3). -/
def State.withFetchWord (s : State) (nbits w : Nat) : State :=
  { s with inbox := .command (BitVec.ofNat 32 (w % 2 ^ nbits)) :: s.inbox }

end Sys2Proof.Machine
end

