-- ==== Sys2Proof/Machine/Assembler.lean ====
section
/-! DEFINITION. The assembler syntax (30_encoding.md R79, R80): one command or one operand write per
line, read to the host action it stands for. The unit itself reads no text. What R79 leaves open
(spaces, the base of operand values) is log entry 5. -/

namespace Sys2Proof.Machine

/-- What a line is made of. -/
inductive Token where
  | word (s : List Char)
  | assign
  | opening
  | closing
  | comma
  deriving DecidableEq, Repr

/-- A character of a mnemonic, a register name or a number. -/
def wordChar (c : Char) : Bool := c.isAlphanum || c == '_' || c == '.'

/-- The word whose characters were read, in reverse; no characters, no word. -/
def endWord (acc : List Char) : List Token :=
  match acc with
  | [] => []
  | c :: cs => [.word (c :: cs).reverse]

/-- A line's tokens; spaces separate words and are otherwise ignored. -/
def tokens : List Char → List Char → Option (List Token)
  | [], acc => some (endWord acc)
  | c :: rest, acc =>
    if wordChar c then tokens rest (c :: acc)
    else if c = ' ' then (tokens rest []).map (endWord acc ++ ·)
    else if c = '[' then (tokens rest []).map (endWord acc ++ .opening :: ·)
    else if c = ']' then (tokens rest []).map (endWord acc ++ .closing :: ·)
    else if c = ',' then (tokens rest []).map (endWord acc ++ .comma :: ·)
    else if c = ':' then
      match rest with
      | d :: rest' =>
        if d = '=' then (tokens rest' []).map (endWord acc ++ .assign :: ·) else none
      | [] => none
    else none

/-- The value of a hexadecimal digit. -/
def digitValue (c : Char) : Option Nat :=
  if '0' ≤ c ∧ c ≤ '9' then some (c.toNat - '0'.toNat)
  else if 'a' ≤ c ∧ c ≤ 'f' then some (c.toNat - 'a'.toNat + 10)
  else if 'A' ≤ c ∧ c ≤ 'F' then some (c.toNat - 'A'.toNat + 10)
  else none

/-- The number that digits of a base continue from `acc`. -/
def digitsFrom (base : Nat) : Nat → List Char → Option Nat
  | acc, [] => some acc
  | acc, c :: cs =>
    match digitValue c with
    | some v => if v < base then digitsFrom base (acc * base + v) cs else none
    | none => none

/-- A number of at least one digit. -/
def digits (base : Nat) (cs : List Char) : Option Nat :=
  match cs with
  | [] => none
  | c :: rest => digitsFrom base 0 (c :: rest)

/-- A decimal or `0x` hexadecimal integer (R79). -/
def numeral (cs : List Char) : Option Nat :=
  match cs with
  | '0' :: 'x' :: rest => digits 16 rest
  | _ => digits 10 cs

/-- A number below a bound. -/
def numeralBelow (bound : Nat) (cs : List Char) : Option Nat :=
  match numeral cs with
  | some v => if v < bound then some v else none
  | none => none

/-- The instruction of a mnemonic without an index (R79): the suffix of PACK_DM is mandatory. -/
def plainMnemonic (w : List Char) : Option Instr :=
  if w = "NEW_ZERO".toList then some .newZero
  else if w = "NEW_RAW".toList then some .newRaw
  else if w = "DECODE_RASTER".toList then some .decodeRaster
  else if w = "PACK_DM.msb".toList then some (.packDm .msbFirst)
  else if w = "PACK_DM.lsb".toList then some (.packDm .lsbFirst)
  else if w = "DOT_MATRIX".toList then some .dotMatrix
  else if w = "EXPORT_DEF".toList then some .exportDef
  else none

/-- The instruction of a mnemonic with an index (R79). -/
def indexedMnemonic (w : List Char) (n : Nat) : Option Instr :=
  if w = "DOT_ROW".toList then some (.dotRow n)
  else if w = "DOT_COL".toList then some (.dotCol n)
  else none

/-- The rest of a list of numbers below a bound, to its closing bracket, and what follows it. -/
def listTail (bound : Nat) : List Token → Option (List Nat × List Token)
  | .closing :: rest => some ([], rest)
  | .comma :: .word w :: rest =>
    match numeralBelow bound w, listTail bound rest with
    | some v, some (vs, after) => some (v :: vs, after)
    | _, _ => none
  | _ => none

/-- A list of numbers below a bound after its opening bracket, and what follows it. -/
def listBody (bound : Nat) : List Token → Option (List Nat × List Token)
  | .closing :: rest => some ([], rest)
  | .word w :: rest =>
    match numeralBelow bound w, listTail bound rest with
    | some v, some (vs, after) => some (v :: vs, after)
    | _, _ => none
  | _ => none

/-- The rest of a list of columns of 0 and 1, to its closing bracket; `fuel` bounds the columns. -/
def columnsTail : Nat → List Token → Option (List (List Nat) × List Token)
  | _, .closing :: rest => some ([], rest)
  | fuel + 1, .comma :: .opening :: rest =>
    match listBody 2 rest with
    | some (col, after) =>
      match columnsTail fuel after with
      | some (cols, after') => some (col :: cols, after')
      | none => none
    | none => none
  | _, _ => none

/-- A list of columns of 0 and 1 after its opening bracket, and what follows it. -/
def columnsBody (ts : List Token) : Option (List (List Nat) × List Token) :=
  match ts with
  | .closing :: rest => some ([], rest)
  | .opening :: rest =>
    match listBody 2 rest with
    | some (col, after) =>
      match columnsTail after.length after with
      | some (cols, after') => some (col :: cols, after')
      | none => none
    | none => none
  | _ => none

/-- The operand write `NAME := value` (R79). -/
def operandWrite (name : List Char) (ts : List Token) : Option HostAction :=
  if name = "ARG_X".toList then
    match ts with
    | [.word w] => (numeralBelow 65536 w).map (fun v => .writeArgX (BitVec.ofNat 16 v))
    | _ => none
  else if name = "ARG_Y".toList then
    match ts with
    | [.word w] => (numeralBelow 65536 w).map (fun v => .writeArgY (BitVec.ofNat 16 v))
    | _ => none
  else if name = "ARG_BYTES".toList then
    match ts with
    | .opening :: rest =>
      match listBody 256 rest with
      | some (vs, []) => some (.writeArgBytes (vs.map (BitVec.ofNat 8)))
      | _ => none
    | _ => none
  else if name = "ARG_DM".toList then
    match ts with
    | .opening :: rest =>
      match columnsBody rest with
      | some (cols, []) => some (.writeArgDm (cols.map (fun col => col.map (fun v => v == 1))))
      | _ => none
    | _ => none
  else none

/-- The instruction a command line stands for (R79). -/
def commandLine (ts : List Token) : Option Instr :=
  match ts with
  | [.word w] => plainMnemonic w
  | [.word w, .word n] => (numeralBelow 65536 n).bind (indexedMnemonic w)
  | _ => none

/-- The host action a line stands for: a command's word, or an operand write, which has no encoding
(R79). There are no pseudo-instructions and no aliases (R80): every other line is none. -/
def assembleLine (line : List Char) : Option HostAction :=
  match tokens line [] with
  | some (.word name :: .assign :: rest) => operandWrite name rest
  | some ts => (commandLine ts).map (fun i => .command (encode i))
  | none => none

end Sys2Proof.Machine
end

