-- ==== Sys2Proof/Machine/Run.lean ====
section
/-! DEFINITION. A run (70_reset_and_hazards.md R278): a finite sequence of host actions from reset, its
end, its final state, and its observation. -/

namespace Sys2Proof.Machine

/-- Whether a host action is a command, the action a run ends with (R278). -/
def HostAction.isCommand : HostAction → Bool
  | .command _ => true
  | .writeArgX _ | .writeArgY _ | .writeArgBytes _ | .writeArgDm _ | .read _ | .reset => false

/-- The ten items of R20 of a state: the state with the host's two lists, which are the model's own
(log entry 3), emptied. -/
def State.items (s : State) : State := { s with inbox := [], outbox := [] }

/-- What is observed after a command: STATUS and RESULT (R278). -/
def observed (s : State) : Half × Result := (s.status, s.result)

/-- What is observed of a run: STATUS and RESULT after each command, and the final state of R20 (R278). -/
structure Observation where
  afterCommands : List (Half × Result)
  final : State
  deriving DecidableEq, Repr

/-- The observation of an action followed by more of them. -/
def Observation.after (a : HostAction) (t : State) (o : Observation) : Observation :=
  { o with afterCommands := if a.isCommand then observed t :: o.afterCommands else o.afterCommands }

/-- Performing the listed actions in order, each by one step, and what is observed of them; none when
one is refused, for a host may not make that move (R271; the model's choice, log entry 12). -/
def observeFrom : List HostAction → State → Option Observation
  | [], s => some ⟨[], s.items⟩
  | a :: rest, s =>
    match step { s with inbox := a :: rest } with
    | .next t => (observeFrom rest t).map (Observation.after a t)
    | .fault _ => none
    | .refused _ => none

/-- A sequence of host actions up to its last command, where its run ends (R278). What follows is no
part of the run, and a sequence without a command makes an empty run (log entry 12). -/
def uptoLastCommand : List HostAction → List HostAction
  | [] => []
  | a :: rest =>
    if (a :: rest).any HostAction.isCommand then a :: uptoLastCommand rest else []

/-- The observation of the run of a sequence of host actions from reset (R278). -/
def observeRun (actions : List HostAction) : Option Observation :=
  observeFrom (uptoLastCommand actions) State.reset

end Sys2Proof.Machine
end

