-- ==== Sys2Proof/Safety.lean ====
section
/-! DEFINITION. The terms statements are made in: the image invariant (10_state.md R24), the legal
STATUS values (R32; 60_exceptions.md R226), the operand capacities (R31), what a command keeps, and
which host actions no state refuses (R31, R39). -/

namespace Sys2Proof.Machine

/-- The image invariant (R24). IMG is one dense sequence, so this is also the canonical form of the
image store: its length is what XSIZE and YSIZE say, and nothing is held when VALID = 0. -/
abbrev Memory.wf (s : State) : Prop :=
  (s.valid = true →
    1 ≤ s.xsize.toNat ∧ s.xsize.toNat ≤ 255 ∧ 1 ≤ s.ysize.toNat ∧ s.ysize.toNat ≤ 48 ∧
      s.xsize.toNat * s.ysize.toNat ≤ 1536 ∧ s.img.length = 8 * s.xsize.toNat * s.ysize.toNat) ∧
  (s.valid = false → s.xsize = 0#8 ∧ s.ysize = 0#8 ∧ s.img = [])

/-- The STATUS values the error tables give, and success (R221 to R226). -/
def legalStatus : List Half :=
  [0x0000#16, 0x0101#16, 0x0201#16, 0x0301#16,
    0x0102#16, 0x0202#16, 0x0302#16, 0x0402#16, 0x0502#16, 0x0602#16, 0x0702#16, 0x0802#16, 0x0902#16,
    0x0103#16, 0x0203#16, 0x0104#16, 0x0204#16, 0x0304#16, 0x0404#16, 0x0105#16]

/-- The operands are within the capacities (R31). -/
abbrev OperandsFit (s : State) : Prop :=
  s.argBytes.length ≤ Config.argBytesCap ∧ dmFits s.argDm

/-- The invariant of the unit: R24, a legal STATUS, no result beside an error (R33), and operands
within capacity (R31). -/
structure Inv (s : State) : Prop where
  image : Memory.wf s
  status : s.status ∈ legalStatus
  result : s.status ≠ 0x0000#16 → s.result = .none
  operands : OperandsFit s

/-- `t` has the operand registers of `s`, and the host's side as it was (R39). -/
abbrev KeepsOperands (s t : State) : Prop :=
  t.argX = s.argX ∧ t.argY = s.argY ∧ t.argBytes = s.argBytes ∧ t.argDm = s.argDm ∧
    t.inbox = s.inbox ∧ t.outbox = s.outbox

/-- `t` holds the image of `s` (R26). -/
abbrev KeepsImage (s t : State) : Prop :=
  t.xsize = s.xsize ∧ t.ysize = s.ysize ∧ t.valid = s.valid ∧ t.img = s.img

/-- The outcome of a command that ends in the error whose STATUS is `v` (R230). -/
def endsInError (s : State) (v : Half) : Host.Outcome State Fault Refusal :=
  .next { s with status := v, result := .none }

/-- The outcome of a command that completes with result `r` and writes no image (R231). -/
def endsInResult (s : State) (r : Result) : Host.Outcome State Fault Refusal :=
  .next { s with status := 0x0000#16, result := r }

/-- The outcome of a construction that completes with the image `bytes` of `x` by `y` (R101). -/
def endsInImage (s : State) (x y : Nat) (bytes : List Byte) : Host.Outcome State Fault Refusal :=
  .next { s with
    xsize := BitVec.ofNat 8 x
    ysize := BitVec.ofNat 8 y
    valid := true
    img := bytes
    status := 0x0000#16
    result := .none }

/-- The four constructions (R102). -/
def constructs : Instr → Bool
  | .newZero | .newRaw | .decodeRaster | .packDm _ => true
  | .dotRow _ | .dotCol _ | .dotMatrix | .exportDef => false

/-- The container passes the signature, header, depth and compression checks (R122 to R125). -/
abbrev RasterHeaderOk (b : List Byte) : Prop :=
  b[0]? = some 0x42#8 ∧ b[1]? = some 0x4D#8 ∧ 34 ≤ b.length ∧
    rasterDepth b = 1 ∧ rasterCompression b = 0

/-- The container's dimensions pass the checks of R126: width 1..2040, height 1..384 either way up,
and the product of the byte dimensions at most 1536. -/
abbrev RasterSizeOk (b : List Byte) : Prop :=
  1 ≤ rasterWidth b ∧ rasterWidth b ≤ 2040 ∧
    1 ≤ (rasterHeight b).natAbs ∧ (rasterHeight b).natAbs ≤ 384 ∧
    (((rasterWidth b).toNat + 7) / 8) * (((rasterHeight b).natAbs + 7) / 8) ≤ 1536

/-- A dot matrix of columns of length `l` (R162). -/
abbrev DmRect (d : List (List Bool)) (l : Nat) : Prop := ∀ col ∈ d, col.length = l

/-- A dot matrix PACK_DM accepts, its columns of length `l` (R162, R163). -/
abbrev DmValid (d : List (List Bool)) (l : Nat) : Prop :=
  DmRect d l ∧ l % 8 = 0 ∧ d.length % 8 = 0 ∧ 8 ≤ d.length ∧ d.length ≤ 2040 ∧
    8 ≤ l ∧ l ≤ 384 ∧ (d.length / 8) * (l / 8) ≤ 1536

/-- The bit of a folded byte that boolean k of a group goes to: bit k LSB-first, bit 7 - k MSB-first (R164). -/
def groupBit (m : BitOrder) (k : Nat) : Nat :=
  match m with
  | .lsbFirst => k
  | .msbFirst => 7 - k

/-- The host actions that no state refuses: an operand write within capacity (R31), a read of a register
(R39), a command and a reset. A read of IMG[i] depends on the length of IMG (R27). -/
def NeverRefused : HostAction → Prop
  | .writeArgBytes b => b.length ≤ Config.argBytesCap
  | .writeArgDm m => dmFits m
  | .read item => ∀ i, item ≠ .imgByte i
  | .writeArgX _ | .writeArgY _ | .command _ | .reset => True

end Sys2Proof.Machine
end

