-- ==== Sys2Proof/Certificates/Slice0/Obligations.lean ====
section
/-! DEFINITION. The statements for the provers, from the numbered rules of the spec. -/

open Sys2Proof Sys2Proof.Machine

/-! ### Reset and the host -/

/-- R38: the reset value of every item of state of R20. -/
def Obligations.ResetStateHoldsTheSpecValues : Prop :=
  State.reset.xsize = 0x00#8 ∧ State.reset.ysize = 0x00#8 ∧ State.reset.valid = false ∧
    State.reset.img = [] ∧ State.reset.status = 0x0000#16 ∧ State.reset.result = .none ∧
    State.reset.argX = 0x0000#16 ∧ State.reset.argY = 0x0000#16 ∧ State.reset.argBytes = [] ∧
    State.reset.argDm = []

/-- R260: the host's reset puts every item of state to its reset value, whatever it held, and nothing
else clears VALID. What becomes of the inbox and the outbox is the model's choice (log entry 3). -/
def Obligations.ResetRestoresEveryItemAndAloneClearsValid : Prop :=
  (∀ (s : State) (rest : List HostAction), s.inbox = .reset :: rest →
    ∃ t, step s = .next t ∧
      t.xsize = 0x00#8 ∧ t.ysize = 0x00#8 ∧ t.valid = false ∧ t.img = [] ∧ t.status = 0x0000#16 ∧
      t.result = .none ∧ t.argX = 0x0000#16 ∧ t.argY = 0x0000#16 ∧ t.argBytes = [] ∧ t.argDm = [] ∧
      t.inbox = rest ∧ t.outbox = s.outbox) ∧
  (∀ s t : State, step s = .next t → s.valid = true → t.valid = false →
    ∃ rest, s.inbox = .reset :: rest)

/-- R31, R39: an operand write sets its one register and nothing else; one beyond a capacity is refused.
The least capacities are the model's choice (log entry 1). -/
def Obligations.HostWriteSetsOneOperandWithinCapacity : Prop :=
  (∀ (s : State) (v : Half) (rest : List HostAction), s.inbox = .writeArgX v :: rest →
    step s = .next { s with argX := v, inbox := rest }) ∧
  (∀ (s : State) (v : Half) (rest : List HostAction), s.inbox = .writeArgY v :: rest →
    step s = .next { s with argY := v, inbox := rest }) ∧
  (∀ (s : State) (b : List Byte) (rest : List HostAction), s.inbox = .writeArgBytes b :: rest →
    (b.length ≤ Config.argBytesCap → step s = .next { s with argBytes := b, inbox := rest }) ∧
    (Config.argBytesCap < b.length → step s = .refused (.argBytesOverCapacity b.length))) ∧
  (∀ (s : State) (m : List (List Bool)) (rest : List HostAction), s.inbox = .writeArgDm m :: rest →
    (m.length ≤ Config.dmMaxCols → (∀ col ∈ m, col.length ≤ Config.dmMaxLen) →
      step s = .next { s with argDm := m, inbox := rest }) ∧
    (Config.dmMaxCols < m.length → step s = .refused (.argDmOverCapacity m.length)) ∧
    ((∃ col ∈ m, Config.dmMaxLen < col.length) → step s = .refused (.argDmOverCapacity m.length))) ∧
  2048 ≤ Config.dmMaxCols ∧ 392 ≤ Config.dmMaxLen

/-- R27: the host reads IMG[i] for i below len(IMG); a read at or beyond is refused; no read changes the
unit (R60). The inbox and the outbox are the model's own (log entry 3). -/
def Obligations.HostReadsImageOnlyBelowItsLength : Prop :=
  ∀ (s : State) (i : Nat) (rest : List HostAction), s.inbox = .read (.imgByte i) :: rest →
    (∀ b, s.img[i]? = some b → step s = .next { s with inbox := rest, outbox := s.outbox ++ [.byte b] }) ∧
    (s.img.length ≤ i → step s = .refused (.imgReadOutside i))

/-- R39, R60, R271: a host read of a register hands back its value and changes nothing of the unit. The
inbox and the outbox are the model's own (log entry 3). -/
def Obligations.HostReadsRegistersWithoutSideEffect : Prop :=
  ∀ (s : State) (item : HostItem) (v : HostValue) (rest : List HostAction),
    s.inbox = .read item :: rest →
    (item, v) ∈
      [(HostItem.xsize, HostValue.byte s.xsize), (.ysize, .byte s.ysize), (.valid, .flag s.valid),
        (.status, .half s.status), (.result, .result s.result), (.argX, .half s.argX),
        (.argY, .half s.argY), (.argBytes, .bytes s.argBytes), (.argDm, .columns s.argDm)] →
    step s = .next { s with inbox := rest, outbox := s.outbox ++ [v] }

/-- R272: between commands the unit does nothing; and the held image goes only at a reset or at a
construction that completes without error. An idle step is the model's own form of "does nothing" (log
entry 3); that a failed construction keeps the image is the spec's own choice (D10). -/
def Obligations.ImageStaysUntilConstructionOrReset : Prop :=
  (∀ s : State, s.inbox = [] → step s = .next s) ∧
  (∀ s t : State, step s = .next t →
    KeepsImage s t ∨ (∃ rest, s.inbox = .reset :: rest) ∨
      ∃ w rest i, s.inbox = .command w :: rest ∧ decode w = .ok i ∧ constructs i = true ∧
        t.status = 0x0000#16)

/-! ### The command word -/

/-- 95_test_vectors.md section 2: words of R75 and what they decode to. -/
def Obligations.DecodeReadsTheSpecWords : Prop :=
  decode 0x00000001#32 = .ok .newZero ∧ decode 0x00000002#32 = .ok .newRaw ∧
    decode 0x00000003#32 = .ok .decodeRaster ∧ decode 0x00000004#32 = .ok (.packDm .lsbFirst) ∧
    decode 0x00000104#32 = .ok (.packDm .msbFirst) ∧ decode 0x00000010#32 = .ok (.dotRow 0) ∧
    decode 0x00090010#32 = .ok (.dotRow 9) ∧ decode 0xFFFF0010#32 = .ok (.dotRow 65535) ∧
    decode 0x000F0011#32 = .ok (.dotCol 15) ∧ decode 0x00000012#32 = .ok .dotMatrix ∧
    decode 0x00000020#32 = .ok .exportDef

/-- R71, R73, R74: decoding the encoded word of a well-formed instruction gives it back, for all eight
commands, both bit orders and every index 0..65535. -/
def Obligations.DecodeOfEncodeIsTheInstruction : Prop :=
  ∀ i : Instr, WellFormed i → decode (encode i) = .ok i

/-- R75: each legal word is the encoding of exactly the instruction it decodes to. -/
def Obligations.EncodeOfDecodeIsTheWord : Prop :=
  ∀ (w : Word) (i : Instr), decode w = .ok i → encode i = w ∧ WellFormed i

/-- R75: a word decodes to a row's operation exactly when its fixed bits match the row, m and i are the
fields M and IDX, and no two rows match the same word. -/
def Obligations.DecodeFollowsMatchAndMask : Prop :=
  let rows : List (Op × Word × Word) :=
    [(.newZero, 0x00000001#32, 0xFFFFFFFF#32), (.newRaw, 0x00000002#32, 0xFFFFFFFF#32),
      (.decodeRaster, 0x00000003#32, 0xFFFFFFFF#32), (.packDm, 0x00000004#32, 0xFFFFFEFF#32),
      (.dotRow, 0x00000010#32, 0x0000FFFF#32), (.dotCol, 0x00000011#32, 0x0000FFFF#32),
      (.dotMatrix, 0x00000012#32, 0xFFFFFFFF#32), (.exportDef, 0x00000020#32, 0xFFFFFFFF#32)]
  (∀ w : Word, ∀ row ∈ rows,
    (∃ i, decode w = .ok i ∧ i.op = row.1) ↔ w &&& row.2.2 = row.2.1) ∧
  (∀ (w : Word) (m : BitOrder), decode w = .ok (.packDm m) → (m = .msbFirst ↔ w.getLsbD 8 = true)) ∧
  (∀ (w : Word) (n : Nat), decode w = .ok (.dotRow n) ∨ decode w = .ok (.dotCol n) →
    n = w.toNat / 65536) ∧
  (∀ w : Word, ∀ a ∈ rows, ∀ b ∈ rows,
    w &&& a.2.2 = a.2.1 → w &&& b.2.2 = b.2.1 → a = b)

/-- R76, R77: the unit reports the first failing check of a word, changes nothing but STATUS and RESULT
for an illegal one, and runs the operation of every other word. -/
def Obligations.IllegalWordReportsItsFirstFailingCheck : Prop :=
  ∀ (s : State) (w : Word) (rest : List HostAction), s.inbox = .command w :: rest →
    let op := w.toNat % 256
    let m := w.toNat / 256 % 2
    let rsv := w.toNat / 512 % 128
    let idx := w.toNat / 65536
    let known := op ∈ [0x01, 0x02, 0x03, 0x04, 0x10, 0x11, 0x12, 0x20]
    let s' := { s with inbox := rest }
    (¬known → step s = endsInError s' 0x0104#16) ∧
    (known → rsv ≠ 0 → step s = endsInError s' 0x0204#16) ∧
    (known → rsv = 0 → m ≠ 0 → op ≠ 0x04 → step s = endsInError s' 0x0304#16) ∧
    (known → rsv = 0 → (m = 0 ∨ op = 0x04) → idx ≠ 0 → op ∉ [0x10, 0x11] →
      step s = endsInError s' 0x0404#16) ∧
    (known → rsv = 0 → (m = 0 ∨ op = 0x04) → (idx = 0 ∨ op ∈ [0x10, 0x11]) →
      ∃ i, decode w = .ok i ∧ i.op.code.toNat = op ∧ step s = exec i s')

/-- R54: a word carried as four bytes goes low byte first, and is read back whole. -/
def Obligations.CommandWordTravelsLowByteFirst : Prop :=
  ∀ w : Word,
    (bytesOfWord w).map BitVec.toNat =
      [w.toNat % 256, w.toNat / 256 % 256, w.toNat / 65536 % 256, w.toNat / 16777216] ∧
    wordOfBytes (bytesOfWord w) = some w

/-- R270: when the host's next action is a command word that decodes to i, the step is exec of i on the
state with that action taken. -/
def Obligations.StepRunsTheDecodedCommand : Prop :=
  ∀ (s : State) (w : Word) (rest : List HostAction) (i : Instr),
    s.inbox = .command w :: rest → decode w = .ok i → step s = exec i { s with inbox := rest }

/-- R70, R270: the word placed by withFetchWord is the one the next step runs, and on no other state. -/
def Obligations.FetchWordRunsOnTheNextStep : Prop :=
  ∀ (s : State) (w : Nat) (i : Instr), decodeTableWord 32 w = some i →
    step (s.withFetchWord 32 w) = exec i s

/-- R79: the spec's lines and the words they assemble to, and operand writes, which have no encoding. -/
def Obligations.AssemblerReadsTheSpecLines : Prop :=
  assembleLine "NEW_ZERO".toList = some (.command 0x00000001#32) ∧
    assembleLine "NEW_RAW".toList = some (.command 0x00000002#32) ∧
    assembleLine "DECODE_RASTER".toList = some (.command 0x00000003#32) ∧
    assembleLine "PACK_DM.msb".toList = some (.command 0x00000104#32) ∧
    assembleLine "PACK_DM.lsb".toList = some (.command 0x00000004#32) ∧
    assembleLine "PACK_DM".toList = none ∧
    assembleLine "DOT_ROW 9".toList = some (.command 0x00090010#32) ∧
    assembleLine "DOT_COL 0x10".toList = some (.command 0x00100011#32) ∧
    assembleLine "DOT_ROW 65536".toList = none ∧
    assembleLine "DOT_MATRIX".toList = some (.command 0x00000012#32) ∧
    assembleLine "EXPORT_DEF".toList = some (.command 0x00000020#32) ∧
    assembleLine "ARG_X := 2".toList = some (.writeArgX 2#16) ∧
    assembleLine "ARG_BYTES := [0x42, 0x4E]".toList = some (.writeArgBytes [0x42#8, 0x4E#8])

/-- R79: `DOT_ROW <n>` and `DOT_COL <n>` place every decimal n of 0..65535 in IDX. -/
def Obligations.AssemblerPlacesTheDecimalIndex : Prop :=
  ∀ ds : List Char, ds ≠ [] → (∀ c ∈ ds, '0' ≤ c ∧ c ≤ '9') →
    let n := ds.foldl (fun a c => 10 * a + (c.toNat - 48)) 0
    n < 65536 →
      assembleLine ("DOT_ROW ".toList ++ ds) = some (.command (encode (.dotRow n))) ∧
      assembleLine ("DOT_COL ".toList ++ ds) = some (.command (encode (.dotCol n)))

/-! ### Every command -/

/-- R270, R277: every command word completes in one step, with no fault and no refusal. -/
def Obligations.EveryCommandCompletesInOneStep : Prop :=
  ∀ (s : State) (w : Word) (rest : List HostAction), s.inbox = .command w :: rest →
    ∃ t, step s = .next t ∧ KeepsOperands { s with inbox := rest } t

/-- R278, R277: a sequence of actions that no state refuses, and the run of such a sequence from reset,
is observed once after each of its commands. -/
def Obligations.RunObservesEveryCommand : Prop :=
  (∀ (actions : List HostAction) (s : State), (∀ a ∈ actions, NeverRefused a) →
    ∃ o, observeFrom actions s = some o ∧
      o.afterCommands.length = (actions.filter HostAction.isCommand).length) ∧
  (∀ actions : List HostAction, (∀ a ∈ actions, NeverRefused a) →
    ∃ o, observeRun actions = some o ∧
      o.afterCommands.length = (actions.filter HostAction.isCommand).length)

/-- R39: no command writes an operand register; the host's side stays too. -/
def Obligations.CommandsKeepOperandRegisters : Prop :=
  ∀ (i : Instr) (s t : State), exec i s = .next t → KeepsOperands s t

/-- R60: an accessor or export writes STATUS and RESULT and nothing else. -/
def Obligations.AccessorsWriteOnlyStatusAndResult : Prop :=
  ∀ (i : Instr) (s t : State), constructs i = false → exec i s = .next t →
    t = { s with status := t.status, result := t.result }

/-- R37, R230: a command that ends in an error leaves everything but STATUS and RESULT as it was, and
RESULT is NONE. -/
def Obligations.FailedCommandKeepsAllButStatus : Prop :=
  ∀ (i : Instr) (s t : State), exec i s = .next t → t.status ≠ 0x0000#16 →
    t = { s with status := t.status, result := .none }

/-- R33, R275: what each command leaves in RESULT. -/
def Obligations.ResultDescribesTheLastCommand : Prop :=
  ∀ (i : Instr) (s t : State), exec i s = .next t →
    (t.status ≠ 0x0000#16 → t.result = .none) ∧
    (t.status = 0x0000#16 →
      match i with
      | .newZero | .newRaw | .decodeRaster | .packDm _ => t.result = .none
      | .dotRow _ | .dotCol _ => ∃ b, t.result = .bits b
      | .dotMatrix => ∃ m, t.result = .columns m
      | .exportDef => ∃ b, t.result = .bytes b)

/-- R221 to R225: the errors each command can report, and no others. -/
def Obligations.EachCommandReportsOnlyItsErrors : Prop :=
  ∀ (i : Instr) (s t : State), exec i s = .next t →
    match i with
    | .newZero => t.status ∈ [0x0000#16, 0x0101#16, 0x0201#16, 0x0301#16]
    | .newRaw => t.status ∈ [0x0000#16, 0x0101#16, 0x0201#16, 0x0301#16, 0x0602#16]
    | .decodeRaster => t.status ∈ [0x0000#16, 0x0101#16, 0x0201#16, 0x0301#16,
        0x0102#16, 0x0202#16, 0x0302#16, 0x0402#16, 0x0502#16]
    | .packDm _ => t.status ∈ [0x0000#16, 0x0101#16, 0x0201#16, 0x0301#16,
        0x0702#16, 0x0802#16, 0x0902#16]
    | .dotRow _ => t.status ∈ [0x0000#16, 0x0105#16, 0x0103#16]
    | .dotCol _ => t.status ∈ [0x0000#16, 0x0105#16, 0x0203#16]
    | .dotMatrix | .exportDef => t.status ∈ [0x0000#16, 0x0105#16]

/-- R32, R226: the STATUS of an error holds its kind in bits 3:0 and its detail in bits 15:8, with
bits 7:4 zero; the kinds are numbered as R220 says. -/
def Obligations.StatusHoldsKindAndDetail : Prop :=
  (∀ e : Err, kindField (statusOf e) = e.kind.code ∧ reservedField (statusOf e) = 0#4 ∧
    detailField (statusOf e) = e.detail ∧
    (statusOf e).toNat = e.detail.toNat * 256 + e.kind.code.toNat) ∧
  ErrorKind.dimensionError.code = 1#4 ∧ ErrorKind.formatError.code = 2#4 ∧
  ErrorKind.indexError.code = 3#4 ∧ ErrorKind.illegalCommand.code = 4#4 ∧ ErrorKind.noImage.code = 5#4

/-- R34: no command reads STATUS or RESULT. -/
def Obligations.CommandsIgnoreStatusAndResult : Prop :=
  ∀ (i : Instr) (s : State) (v : Half) (r : Result), exec i { s with status := v, result := r } = exec i s

/-- R24, R32, R31: the invariant is kept by every step. -/
def Obligations.EveryStepKeepsTheInvariant : Prop :=
  ∀ s t : State, Inv s → step s = .next t → Inv t

/-- R24, R38: the reset state satisfies the invariant. -/
def Obligations.ResetStateSatisfiesTheInvariant : Prop := Inv State.reset

/-- R8, R9: an image is at most 12288 bytes, 2040 pixels wide and 384 high. -/
def Obligations.ImageIsWithinItsLimits : Prop :=
  ∀ s : State, Memory.wf s →
    s.img.length ≤ 12288 ∧ pixelWidth s ≤ 2040 ∧ pixelHeight s ≤ 384

/-! ### Constructions -/

/-- R100: CheckDims tests x, then y, then the exact product. -/
def Obligations.CheckDimsReportsFirstViolation : Prop :=
  ∀ x y : Nat,
    ((x < 1 ∨ 255 < x) → checkDims x y = some ⟨.dimensionError, 1#8⟩) ∧
    (1 ≤ x → x ≤ 255 → (y < 1 ∨ 48 < y) → checkDims x y = some ⟨.dimensionError, 2#8⟩) ∧
    (1 ≤ x → x ≤ 255 → 1 ≤ y → y ≤ 48 → 1536 < x * y →
      checkDims x y = some ⟨.dimensionError, 3#8⟩) ∧
    (1 ≤ x → x ≤ 255 → 1 ≤ y → y ≤ 48 → x * y ≤ 1536 → checkDims x y = none)

/-- R102: a construction runs the same whatever image is held or none, and never raises NoImage. -/
def Obligations.ConstructionsIgnoreTheHeldImage : Prop :=
  ∀ (i : Instr) (s s' : State), constructs i = true → KeepsOperands s s' →
    ∃ t t', exec i s = .next t ∧ exec i s' = .next t' ∧ t.status = t'.status ∧
      t.status ≠ 0x0105#16 ∧ (t.status = 0x0000#16 → t = t')

/-- R103: NEW_ZERO, its word, its errors in order, the image it builds, and that every accessor of that image
returns 0 bits. -/
def Obligations.NewZeroBuildsTheZeroImage : Prop :=
  encode .newZero = 0x00000001#32 ∧
  ∀ s : State,
    let x := s.argX.toNat
    let y := s.argY.toNat
    ((x < 1 ∨ 255 < x) → exec .newZero s = endsInError s 0x0101#16) ∧
    (1 ≤ x → x ≤ 255 → (y < 1 ∨ 48 < y) → exec .newZero s = endsInError s 0x0201#16) ∧
    (1 ≤ x → x ≤ 255 → 1 ≤ y → y ≤ 48 → 1536 < x * y →
      exec .newZero s = endsInError s 0x0301#16) ∧
    (1 ≤ x → x ≤ 255 → 1 ≤ y → y ≤ 48 → x * y ≤ 1536 →
      exec .newZero s = endsInImage s x y (List.replicate (8 * x * y) 0x00#8) ∧
      ∀ t, exec .newZero s = .next t →
        (∀ r, r < 8 * y → exec (.dotRow r) t = endsInResult t (.bits (List.replicate (8 * x) false))) ∧
        (∀ c, c < 8 * x → exec (.dotCol c) t = endsInResult t (.bits (List.replicate (8 * y) false))) ∧
        exec .dotMatrix t =
          endsInResult t (.columns (List.replicate (8 * x) (List.replicate (8 * y) false))))

/-- R104: NEW_RAW, its word, its errors in order (dimensions before the byte count), and the bytes stored
verbatim. -/
def Obligations.NewRawStoresTheBytesVerbatim : Prop :=
  encode .newRaw = 0x00000002#32 ∧
  ∀ s : State,
    let x := s.argX.toNat
    let y := s.argY.toNat
    ((x < 1 ∨ 255 < x) → exec .newRaw s = endsInError s 0x0101#16) ∧
    (1 ≤ x → x ≤ 255 → (y < 1 ∨ 48 < y) → exec .newRaw s = endsInError s 0x0201#16) ∧
    (1 ≤ x → x ≤ 255 → 1 ≤ y → y ≤ 48 → 1536 < x * y →
      exec .newRaw s = endsInError s 0x0301#16) ∧
    (1 ≤ x → x ≤ 255 → 1 ≤ y → y ≤ 48 → x * y ≤ 1536 → s.argBytes.length ≠ 8 * x * y →
      exec .newRaw s = endsInError s 0x0602#16) ∧
    (1 ≤ x → x ≤ 255 → 1 ≤ y → y ≤ 48 → x * y ≤ 1536 → s.argBytes.length = 8 * x * y →
      exec .newRaw s = endsInImage s x y s.argBytes)

/-- R15, R51: MemRead is little-endian: base-256 digit k of the value is the byte at addr + k, and there
are n digits. -/
def Obligations.MemReadIsLittleEndian : Prop :=
  ∀ (b : List Byte) (addr n : Nat), addr + n ≤ b.length →
    memRead b addr n < 256 ^ n ∧
    ∀ k, k < n → ∃ v, b[addr + k]? = some v ∧ memRead b addr n / 256 ^ k % 256 = v.toNat

/-- R55: the header fields the unit reads, at their offsets, with width and height two's-complement. -/
def Obligations.HeaderFieldsAreReadAtTheirOffsets : Prop :=
  ∀ (b : List Byte), 34 ≤ b.length →
    let at4 := fun o => (byteAt b o).toNat + 256 * (byteAt b (o + 1)).toNat +
      65536 * (byteAt b (o + 2)).toNat + 16777216 * (byteAt b (o + 3)).toNat
    rasterOffs b = at4 10 ∧ rasterCompression b = at4 30 ∧
    rasterDepth b = (byteAt b 28).toNat + 256 * (byteAt b 29).toNat ∧
    (at4 18 < 2147483648 → rasterWidth b = (at4 18 : Int)) ∧
    (2147483648 ≤ at4 18 → rasterWidth b = (at4 18 : Int) - 4294967296) ∧
    (at4 22 < 2147483648 → rasterHeight b = (at4 22 : Int)) ∧
    (2147483648 ≤ at4 22 → rasterHeight b = (at4 22 : Int) - 4294967296)

/-- R121 to R127: the errors of DECODE_RASTER, in the order checked. -/
def Obligations.DecodeRasterReportsItsFirstFailingCheck : Prop :=
  ∀ s : State,
    let b := s.argBytes
    let sig := b[0]? = some 0x42#8 ∧ b[1]? = some 0x4D#8
    let w := rasterWidth b
    let rows := (rasterHeight b).natAbs
    (¬sig → exec .decodeRaster s = endsInError s 0x0102#16) ∧
    (sig → b.length < 34 → exec .decodeRaster s = endsInError s 0x0402#16) ∧
    (sig → 34 ≤ b.length → rasterDepth b ≠ 1 → exec .decodeRaster s = endsInError s 0x0202#16) ∧
    (sig → 34 ≤ b.length → rasterDepth b = 1 → rasterCompression b ≠ 0 →
      exec .decodeRaster s = endsInError s 0x0302#16) ∧
    (RasterHeaderOk b → (w < 1 ∨ 2040 < w) → exec .decodeRaster s = endsInError s 0x0101#16) ∧
    (RasterHeaderOk b → 1 ≤ w → w ≤ 2040 → (rows = 0 ∨ 384 < rows) →
      exec .decodeRaster s = endsInError s 0x0201#16) ∧
    (RasterHeaderOk b → 1 ≤ w → w ≤ 2040 → 1 ≤ rows → rows ≤ 384 →
      1536 < ((w.toNat + 7) / 8) * ((rows + 7) / 8) → exec .decodeRaster s = endsInError s 0x0301#16) ∧
    (RasterHeaderOk b → RasterSizeOk b → b.length < rasterEnd b →
      exec .decodeRaster s = endsInError s 0x0502#16)

/-- R133: the image of an accepted container, pixel by pixel: the complement of the stored pixel, rows
bottom-up for a positive height and top-down for a negative one (R128), and 0 in filler rows. That bit 7
of a stored byte is its leftmost pixel is the spec's own choice from general knowledge (R53, D16; log
entry 4), and so are the kept pad bits (D17) and the filler value (D18) and the bound (D15; log entry 10). -/
def Obligations.DecodeRasterImageIsTheInvertedRaster : Prop :=
  ∀ s : State,
    let b := s.argBytes
    let x := ((rasterWidth b).toNat + 7) / 8
    let rows := (rasterHeight b).natAbs
    let y := (rows + 7) / 8
    let stride := 4 * ((x + 3) / 4)
    RasterHeaderOk b → RasterSizeOk b → rasterOffs b + (rows - 1) * stride + x ≤ b.length →
      ∃ t, exec .decodeRaster s = .next t ∧ t.xsize.toNat = x ∧ t.ysize.toNat = y ∧ t.valid = true ∧
        t.img.length = 8 * x * y ∧ t.status = 0x0000#16 ∧ t.result = .none ∧ KeepsOperands s t ∧
        ∀ c band i, c < 8 * x → band < y → i < 8 →
          ∃ v, t.img[c * y + band]? = some v ∧
            (8 * band + i < rows →
              ∃ p, b[rasterOffs b +
                  (if 0 < rasterHeight b then rows - 1 - (8 * band + i) else 8 * band + i) * stride +
                  c / 8]? = some p ∧
                v.getLsbD (7 - i) = !p.getLsbD (7 - c % 8)) ∧
            (rows ≤ 8 * band + i → v.getLsbD (7 - i) = false)

/-- R134: containers of one length that agree on the fields of R120 and on every byte from the
pixel-data offset on decode the same way, whatever the other header bytes hold. -/
def Obligations.DecodeRasterIgnoresOtherHeaderBytes : Prop :=
  ∀ (s s' : State), s' = { s with argBytes := s'.argBytes } →
    s'.argBytes.length = s.argBytes.length →
    (∀ k, (k < 2 ∨ (10 ≤ k ∧ k < 14) ∨ (18 ≤ k ∧ k < 26) ∨ (28 ≤ k ∧ k < 34) ∨
        rasterOffs s.argBytes ≤ k) → s'.argBytes[k]? = s.argBytes[k]?) →
    ∃ t, exec .decodeRaster s = .next t ∧
      exec .decodeRaster s' = .next { t with argBytes := s'.argBytes }

/-- R161 to R163, R168: the errors of PACK_DM, in the order checked, in both bit orders. -/
def Obligations.PackDmReportsItsFirstFailingCheck : Prop :=
  ∀ (m : BitOrder) (s : State),
    let d := s.argDm
    ((∃ a ∈ d, ∃ b ∈ d, a.length ≠ b.length) → exec (.packDm m) s = endsInError s 0x0702#16) ∧
    (∀ l, d ≠ [] → DmRect d l →
      (l % 8 ≠ 0 → exec (.packDm m) s = endsInError s 0x0802#16) ∧
      (l % 8 = 0 → d.length % 8 ≠ 0 → exec (.packDm m) s = endsInError s 0x0902#16) ∧
      (l % 8 = 0 → d.length % 8 = 0 → 2040 < d.length →
        exec (.packDm m) s = endsInError s 0x0101#16) ∧
      (l % 8 = 0 → d.length % 8 = 0 → d.length ≤ 2040 → (l = 0 ∨ 384 < l) →
        exec (.packDm m) s = endsInError s 0x0201#16) ∧
      (l % 8 = 0 → d.length % 8 = 0 → d.length ≤ 2040 → 8 ≤ l → l ≤ 384 →
        1536 < (d.length / 8) * (l / 8) → exec (.packDm m) s = endsInError s 0x0301#16)) ∧
    (d = [] → exec (.packDm m) s = endsInError s 0x0101#16)

/-- R164, R165: PACK_DM of a valid matrix: boolean k of a group goes to bit k (LSB-first) or bit 7 - k
(MSB-first), without inversion, and the byte of column c and group g lands at c * y + g. -/
def Obligations.PackDmFoldsGroupsColumnByColumn : Prop :=
  ∀ (m : BitOrder) (s : State) (l : Nat), DmValid s.argDm l →
    ∃ t, exec (.packDm m) s = .next t ∧ t.xsize.toNat = s.argDm.length / 8 ∧ t.ysize.toNat = l / 8 ∧
      t.valid = true ∧ t.img.length = s.argDm.length * (l / 8) ∧ t.status = 0x0000#16 ∧
      t.result = .none ∧ KeepsOperands s t ∧
      ∀ c g k, c < s.argDm.length → g < l / 8 → k < 8 →
        ∃ v col, t.img[c * (l / 8) + g]? = some v ∧ s.argDm[c]? = some col ∧
          col[8 * g + k]? = some (v.getLsbD (groupBit m k))

/-- R166: after PACK_DM.msb of a valid matrix D, DOT_MATRIX returns D, DOT_COL c returns D[c], and bit c
of DOT_ROW r is D[c][r]. -/
def Obligations.MsbPackingRoundTrips : Prop :=
  ∀ (s t : State) (l : Nat), DmValid s.argDm l → exec (.packDm .msbFirst) s = .next t →
    exec .dotMatrix t = endsInResult t (.columns s.argDm) ∧
    (∀ (c : Nat) (col : List Bool), s.argDm[c]? = some col →
      exec (.dotCol c) t = endsInResult t (.bits col)) ∧
    (∀ r, r < l → ∃ row, exec (.dotRow r) t = endsInResult t (.bits row) ∧
      row.length = s.argDm.length ∧
        ∀ (c : Nat) (col : List Bool), s.argDm[c]? = some col → row[c]? = col[r]?)

/-- R167: after PACK_DM.lsb of a valid matrix D, DOT_COL c returns each group of 8 of D[c] reversed. -/
def Obligations.LsbPackingReversesEachGroup : Prop :=
  ∀ (s t : State) (l : Nat), DmValid s.argDm l → exec (.packDm .lsbFirst) s = .next t →
    ∀ (c : Nat) (col : List Bool), s.argDm[c]? = some col →
      ∃ bits, exec (.dotCol c) t = endsInResult t (.bits bits) ∧ bits.length = l ∧
        ∀ r, r < l → bits[r]? = col[8 * (r / 8) + 7 - r % 8]?

/-! ### Accessors and export -/

/-- R181: with no image held, DOT_ROW and DOT_COL of any index, DOT_MATRIX and EXPORT_DEF raise
NoImage(1). -/
def Obligations.AccessorsNeedAnImage : Prop :=
  ∀ s : State, s.valid = false →
    (∀ n, exec (.dotRow n) s = endsInError s 0x0105#16) ∧
    (∀ n, exec (.dotCol n) s = endsInError s 0x0105#16) ∧
    exec .dotMatrix s = endsInError s 0x0105#16 ∧ exec .exportDef s = endsInError s 0x0105#16

/-- R182: DOT_ROW, its word `(r << 16) | 0x10`, its errors, and its result: bit c of row r is
bit 7 - (r mod 8) of the byte of column c at band r div 8. -/
def Obligations.DotRowReadsOneRow : Prop :=
  (∀ r, r < 65536 → (encode (.dotRow r)).toNat = 65536 * r + 0x10) ∧
  ∀ (s : State) (r : Nat), Memory.wf s →
    (s.valid = false → exec (.dotRow r) s = endsInError s 0x0105#16) ∧
    (s.valid = true → 8 * s.ysize.toNat ≤ r → exec (.dotRow r) s = endsInError s 0x0103#16) ∧
    (s.valid = true → r < 8 * s.ysize.toNat →
      ∃ row, exec (.dotRow r) s = endsInResult s (.bits row) ∧ row.length = 8 * s.xsize.toNat ∧
        ∀ c, c < 8 * s.xsize.toNat →
          ∃ v, s.img[c * s.ysize.toNat + r / 8]? = some v ∧ row[c]? = some (v.getLsbD (7 - r % 8)))

/-- R184: DOT_COL, its word `(c << 16) | 0x11`, its errors, and its result: the column's bytes from top
to bottom, each from bit 7 down to bit 0. -/
def Obligations.DotColReadsOneColumn : Prop :=
  (∀ c, c < 65536 → (encode (.dotCol c)).toNat = 65536 * c + 0x11) ∧
  ∀ (s : State) (c : Nat), Memory.wf s →
    (s.valid = false → exec (.dotCol c) s = endsInError s 0x0105#16) ∧
    (s.valid = true → 8 * s.xsize.toNat ≤ c → exec (.dotCol c) s = endsInError s 0x0203#16) ∧
    (s.valid = true → c < 8 * s.xsize.toNat →
      ∃ col, exec (.dotCol c) s = endsInResult s (.bits col) ∧ col.length = 8 * s.ysize.toNat ∧
        ∀ r, r < 8 * s.ysize.toNat →
          ∃ v, s.img[c * s.ysize.toNat + r / 8]? = some v ∧ col[r]? = some (v.getLsbD (7 - r % 8)))

/-- R186: DOT_MATRIX, its word, its error, and its result: every column, in column order; and written to
ARG_DM and packed MSB-first, that result rebuilds the same XSIZE, YSIZE and IMG. -/
def Obligations.DotMatrixReadsAllColumnsAndRebuilds : Prop :=
  encode .dotMatrix = 0x00000012#32 ∧
  ∀ s : State, Memory.wf s →
    (s.valid = false → exec .dotMatrix s = endsInError s 0x0105#16) ∧
    (s.valid = true →
      ∃ m, exec .dotMatrix s = endsInResult s (.columns m) ∧ m.length = 8 * s.xsize.toNat ∧
        (∀ c, c < 8 * s.xsize.toNat → ∃ col, m[c]? = some col ∧ col.length = 8 * s.ysize.toNat ∧
          ∀ r, r < 8 * s.ysize.toNat →
            ∃ v, s.img[c * s.ysize.toNat + r / 8]? = some v ∧ col[r]? = some (v.getLsbD (7 - r % 8))) ∧
        ∀ t : State, t.argDm = m →
          ∃ u, exec (.packDm .msbFirst) t = .next u ∧ KeepsImage s u ∧ u.status = 0x0000#16)

/-- R187: element c of DOT_ROW r, element r of DOT_COL c and element r of column c of DOT_MATRIX are
the same bit, Px(r, c). -/
def Obligations.AccessorsAgreeOnEveryPixel : Prop :=
  ∀ (s : State) (r c : Nat), s.valid = true → r < 8 * s.ysize.toNat → c < 8 * s.xsize.toNat →
    ∃ (row col : List Bool) (m : List (List Bool)) (mcol : List Bool),
      exec (.dotRow r) s = endsInResult s (.bits row) ∧
      exec (.dotCol c) s = endsInResult s (.bits col) ∧
      exec .dotMatrix s = endsInResult s (.columns m) ∧ m[c]? = some mcol ∧
      row[c]? = some (px s r c) ∧ col[r]? = some (px s r c) ∧ mcol[r]? = some (px s r c)

/-- R68: an accessor's STATUS and RESULT are a function of the held image and its index alone. -/
def Obligations.AccessorsDependOnTheImageAlone : Prop :=
  ∀ (i : Instr) (s s' : State), constructs i = false → KeepsImage s s' →
    ∃ t t', exec i s = .next t ∧ exec i s' = .next t' ∧ t.status = t'.status ∧ t.result = t'.result

/-- R201: EXPORT_DEF, its word, its error, and its result: XSIZE, YSIZE and the image bytes verbatim. -/
def Obligations.ExportDefReturnsTheDefinitionBytes : Prop :=
  encode .exportDef = 0x00000020#32 ∧
  ∀ s : State,
    (s.valid = false → exec .exportDef s = endsInError s 0x0105#16) ∧
    (s.valid = true → exec .exportDef s = endsInResult s (.bytes (s.xsize :: s.ysize :: s.img)) ∧
      (Memory.wf s → (s.xsize :: s.ysize :: s.img).length = 2 + 8 * s.xsize.toNat * s.ysize.toNat))

/-- R262: with the operand registers at their reset values, every construction fails, whatever else the
state holds. -/
def Obligations.ConstructionsFailOnResetOperands : Prop :=
  ∀ s : State, s.argX = 0x0000#16 → s.argY = 0x0000#16 → s.argBytes = [] → s.argDm = [] →
    exec .newZero s = endsInError s 0x0101#16 ∧ exec .newRaw s = endsInError s 0x0101#16 ∧
    exec .decodeRaster s = endsInError s 0x0102#16 ∧
    ∀ m, exec (.packDm m) s = endsInError s 0x0101#16

/-! ### Runs -/

/-- R278: a run ends when its last command has completed: what follows it in the sequence is not part of
the run. A sequence without a command makes an empty run, which is the model's choice (log entry 12). -/
def Obligations.RunEndsWithItsLastCommand : Prop :=
  (∀ (before : List HostAction) (w : Word) (later : List HostAction),
    (∀ a ∈ later, a.isCommand = false) →
      observeRun (before ++ .command w :: later) = observeFrom (before ++ [.command w]) State.reset) ∧
  (∀ actions : List HostAction, (∀ a ∈ actions, a.isCommand = false) →
    observeRun actions = some ⟨[], State.reset⟩)

/-- R278: an observation grows action by action: one more action is a step of the final state of R20, it
adds STATUS and RESULT when it is a command, and its items are the new final state. The last clause, that
a refused action leaves no observation, is the model's choice (log entry 12; R278 does not say what such
an action does). The inbox and the outbox are the model's own (log entry 3). -/
def Obligations.ObservationGrowsByOneAction : Prop :=
  ∀ (actions : List HostAction) (a : HostAction) (s : State) (o : Observation),
    observeFrom actions s = some o →
      (∀ t, step { o.final with inbox := [a] } = .next t →
        observeFrom (actions ++ [a]) s =
          some ⟨o.afterCommands ++ (if a.isCommand then [(t.status, t.result)] else []),
            { t with inbox := [], outbox := [] }⟩) ∧
      (∀ r, step { o.final with inbox := [a] } = .refused r → observeFrom (actions ++ [a]) s = none)

/-- R278: an observed run is the machine's own steps, one for each of its actions, and its final state
holds the items of the state they reach. The last clause, that a run is not observed exactly when the
machine refuses one of its actions (R271), is the model's choice (log entry 12). The inbox and the outbox
are the model's own (log entry 3). -/
def Obligations.RunIsTheMachinesSteps : Prop :=
  ∀ actions : List HostAction,
    let run := uptoLastCommand actions
    let after := Sys2Proof.core.run run.length { State.reset with inbox := run }
    (∀ o, observeRun actions = some o →
      ∃ t : State, after = .next t ∧ o.final = { t with inbox := [], outbox := [] } ∧ t.inbox = []) ∧
    (observeRun actions = none → ∃ r : Refusal, after = .refused r)
end

