-- ==== Sys2Proof/Laws/Assembler.lean ====
section
/-! SUPPORT. What the tokens of a line are, character by character, and the value of digits
(30_encoding.md R79). -/

namespace Sys2Proof.Machine

@[simp] theorem tokens_nil (acc : List Char) : tokens [] acc = some (endWord acc) := rfl

theorem tokens_wordChar {c : Char} (h : wordChar c = true) (rest acc : List Char) :
    tokens (c :: rest) acc = tokens rest (c :: acc) := by
  rw [tokens.eq_def]
  simp only [h, if_true]

theorem tokens_space (rest acc : List Char) :
    tokens (' ' :: rest) acc = (tokens rest []).map (endWord acc ++ ·) := by
  have h : wordChar ' ' = false := by decide
  rw [tokens.eq_def]
  simp only [h, Bool.false_eq_true, if_false, if_true]

/-- A run of word characters is read into the word being read. -/
theorem tokens_word {w : List Char} (h : ∀ c ∈ w, wordChar c = true) (rest acc : List Char) :
    tokens (w ++ rest) acc = tokens rest (w.reverse ++ acc) := by
  induction w generalizing acc with
  | nil => rfl
  | cons c cs ih =>
    rw [List.cons_append, tokens_wordChar (h c List.mem_cons_self),
      ih (fun d hd => h d (List.mem_cons_of_mem c hd)), List.reverse_cons, List.append_assoc,
      List.singleton_append]

theorem endWord_reverse {w : List Char} (h : w ≠ []) : endWord w.reverse = [.word w] := by
  unfold endWord
  split
  · next he => exact absurd (List.reverse_eq_nil_iff.mp he) h
  · next c cs he => rw [← he, List.reverse_reverse]

/-- A decimal digit is a word character, and its value is its distance from `0`. -/
theorem decimal_digit {c : Char} (h : '0' ≤ c ∧ c ≤ '9') :
    wordChar c = true ∧ digitValue c = some (c.toNat - 48) ∧ c.toNat - 48 < 10 := by
  have h1 : 48 ≤ c.toNat := h.1
  have h2 : c.toNat ≤ 57 := h.2
  refine ⟨?_, by simp [digitValue, h], by omega⟩
  simp only [wordChar, Char.isAlphanum, Char.isDigit, Bool.or_eq_true]
  exact .inl (.inl (.inr (by simp; exact h)))

theorem digitsFrom_cons {base v : Nat} {c : Char} (hv : digitValue c = some v) (hb : v < base)
    (acc : Nat) (cs : List Char) : digitsFrom base acc (c :: cs) = digitsFrom base (acc * base + v) cs := by
  rw [digitsFrom, hv]
  exact if_pos hb

end Sys2Proof.Machine
end

