-- ==== Sys2Proof/Laws/Bits.lean ====
section
/-! SUPPORT. The bits of a folded byte, and the bytes of the packed column-major layout. -/

namespace Sys2Proof.Machine

theorem byteOfBits_getLsbD (f : Nat → Bool) (i : Nat) (h : i < 8) :
    (byteOfBits f).getLsbD i = f i := by
  rw [byteOfBits, BitVec.getLsbD_ofFnLE, dif_pos h]

theorem foldBits_lsb_getLsbD (t : Nat → Bool) (k : Nat) (h : k < 8) :
    (foldBits .lsbFirst t).getLsbD k = t k :=
  byteOfBits_getLsbD t k h

theorem foldBits_msb_getLsbD (t : Nat → Bool) (k : Nat) (h : k < 8) :
    (foldBits .msbFirst t).getLsbD (7 - k) = t k := by
  have hk : 7 - (7 - k) = k := by omega
  rw [foldBits, byteOfBits_getLsbD _ _ (by omega), hk]

/-- Equal-length blocks laid end to end: block c, element b is at index c * n + b. -/
theorem getElem?_flatMap_blocks {α : Type} (f : Nat → Nat → α) (cols n : Nat) :
    ∀ c b, c < cols → b < n →
      ((List.range cols).flatMap (fun c => (List.range n).map (f c)))[c * n + b]? = some (f c b) := by
  induction cols with
  | zero => intro c b hc; omega
  | succ m ih =>
    intro c b hc hb
    have hlen : ((List.range m).flatMap (fun c => (List.range n).map (f c))).length = m * n := by
      simp [List.length_flatMap]
    rw [List.range_succ, List.flatMap_append]
    by_cases hcm : c < m
    · have hlt : c * n + b < m * n := by
        have h1 : (c + 1) * n ≤ m * n := Nat.mul_le_mul_right n hcm
        rw [Nat.succ_mul] at h1
        omega
      rw [List.getElem?_append_left (by rw [hlen]; exact hlt)]
      exact ih c b hcm hb
    · obtain rfl : c = m := by omega
      rw [List.getElem?_append_right (by rw [hlen]; omega), hlen]
      simp [show c * n + b - c * n = b by omega, hb]

@[simp] theorem packPixels_length (m : BitOrder) (p : Nat → Nat → Bool) (cols bands : Nat) :
    (packPixels m p cols bands).length = cols * bands := by
  simp [packPixels, List.length_flatMap]

theorem packPixels_getElem? (m : BitOrder) (p : Nat → Nat → Bool) {cols bands c b : Nat}
    (hc : c < cols) (hb : b < bands) :
    (packPixels m p cols bands)[c * bands + b]? = some (foldBits m (fun k => p (8 * b + k) c)) :=
  getElem?_flatMap_blocks (fun c b => foldBits m (fun k => p (8 * b + k) c)) cols bands c b hc hb

@[simp] theorem invertBytes_length (s : List Byte) : (invertBytes s).length = s.length := by
  simp [invertBytes]

theorem invertBytes_getElem? (s : List Byte) (i : Nat) :
    (invertBytes s)[i]? = s[i]?.map (fun b => b ^^^ 0xFF#8) := by
  simp [invertBytes]

/-- A complemented byte's bits are the complements of its bits. -/
theorem complement_getLsbD (b : Byte) (i : Nat) (h : i < 8) :
    (b ^^^ 0xFF#8).getLsbD i = !b.getLsbD i := by
  have hff : (0xFF#8).getLsbD i = true := by
    have : i = 0 ∨ i = 1 ∨ i = 2 ∨ i = 3 ∨ i = 4 ∨ i = 5 ∨ i = 6 ∨ i = 7 := by omega
    rcases this with rfl | rfl | rfl | rfl | rfl | rfl | rfl | rfl <;> rfl
  rw [BitVec.getLsbD_xor, hff, Bool.xor_true]

/-- A byte that is there is read as it is, whatever the free value. -/
theorem byteAt_of_getElem? {s : List Byte} {i : Nat} {b : Byte} (h : s[i]? = some b) :
    byteAt s i = b := by
  simp [byteAt, h]

theorem byteAt_of_lt {s : List Byte} {i : Nat} (h : i < s.length) : s[i]? = some (byteAt s i) := by
  simp [byteAt, h]

/-- Every index below the area is the place of one column and one band (R25). -/
theorem index_split {n i cols : Nat} (h : i < cols * n) :
    i / n < cols ∧ i % n < n ∧ i / n * n + i % n = i := by
  have hn : 0 < n := by
    rcases Nat.eq_zero_or_pos n with rfl | h0
    · simp at h
    · exact h0
  exact ⟨Nat.div_lt_of_lt_mul (by rwa [Nat.mul_comm] at h), Nat.mod_lt _ hn, by
    rw [Nat.mul_comm]; exact Nat.div_add_mod i n⟩

end Sys2Proof.Machine
end

