-- ==== Sys2Proof/Laws/State.lean ====
section
/-! SUPPORT. One lemma per field for each state update, so that no proof unfolds a record update. -/

namespace Sys2Proof.Machine

@[simp] theorem State.failed_xsize (e : Err) (s : State) : (s.failed e).xsize = s.xsize := rfl
@[simp] theorem State.failed_ysize (e : Err) (s : State) : (s.failed e).ysize = s.ysize := rfl
@[simp] theorem State.failed_valid (e : Err) (s : State) : (s.failed e).valid = s.valid := rfl
@[simp] theorem State.failed_img (e : Err) (s : State) : (s.failed e).img = s.img := rfl
@[simp] theorem State.failed_status (e : Err) (s : State) : (s.failed e).status = statusOf e := rfl
@[simp] theorem State.failed_result (e : Err) (s : State) : (s.failed e).result = .none := rfl
@[simp] theorem State.failed_argX (e : Err) (s : State) : (s.failed e).argX = s.argX := rfl
@[simp] theorem State.failed_argY (e : Err) (s : State) : (s.failed e).argY = s.argY := rfl
@[simp] theorem State.failed_argBytes (e : Err) (s : State) : (s.failed e).argBytes = s.argBytes := rfl
@[simp] theorem State.failed_argDm (e : Err) (s : State) : (s.failed e).argDm = s.argDm := rfl
@[simp] theorem State.failed_inbox (e : Err) (s : State) : (s.failed e).inbox = s.inbox := rfl
@[simp] theorem State.failed_outbox (e : Err) (s : State) : (s.failed e).outbox = s.outbox := rfl

@[simp] theorem State.completed_xsize (r : Result) (s : State) : (s.completed r).xsize = s.xsize := rfl
@[simp] theorem State.completed_ysize (r : Result) (s : State) : (s.completed r).ysize = s.ysize := rfl
@[simp] theorem State.completed_valid (r : Result) (s : State) : (s.completed r).valid = s.valid := rfl
@[simp] theorem State.completed_img (r : Result) (s : State) : (s.completed r).img = s.img := rfl
@[simp] theorem State.completed_status (r : Result) (s : State) : (s.completed r).status = statusOk := rfl
@[simp] theorem State.completed_result (r : Result) (s : State) : (s.completed r).result = r := rfl
@[simp] theorem State.completed_argX (r : Result) (s : State) : (s.completed r).argX = s.argX := rfl
@[simp] theorem State.completed_argY (r : Result) (s : State) : (s.completed r).argY = s.argY := rfl
@[simp] theorem State.completed_argBytes (r : Result) (s : State) : (s.completed r).argBytes = s.argBytes := rfl
@[simp] theorem State.completed_argDm (r : Result) (s : State) : (s.completed r).argDm = s.argDm := rfl
@[simp] theorem State.completed_inbox (r : Result) (s : State) : (s.completed r).inbox = s.inbox := rfl
@[simp] theorem State.completed_outbox (r : Result) (s : State) : (s.completed r).outbox = s.outbox := rfl

@[simp] theorem State.committed_xsize (im : Image) (s : State) : (s.committed im).xsize = BitVec.ofNat 8 im.x := rfl
@[simp] theorem State.committed_ysize (im : Image) (s : State) : (s.committed im).ysize = BitVec.ofNat 8 im.y := rfl
@[simp] theorem State.committed_valid (im : Image) (s : State) : (s.committed im).valid = true := rfl
@[simp] theorem State.committed_img (im : Image) (s : State) : (s.committed im).img = im.bytes := rfl
@[simp] theorem State.committed_status (im : Image) (s : State) : (s.committed im).status = statusOk := rfl
@[simp] theorem State.committed_result (im : Image) (s : State) : (s.committed im).result = .none := rfl
@[simp] theorem State.committed_argX (im : Image) (s : State) : (s.committed im).argX = s.argX := rfl
@[simp] theorem State.committed_argY (im : Image) (s : State) : (s.committed im).argY = s.argY := rfl
@[simp] theorem State.committed_argBytes (im : Image) (s : State) : (s.committed im).argBytes = s.argBytes := rfl
@[simp] theorem State.committed_argDm (im : Image) (s : State) : (s.committed im).argDm = s.argDm := rfl
@[simp] theorem State.committed_inbox (im : Image) (s : State) : (s.committed im).inbox = s.inbox := rfl
@[simp] theorem State.committed_outbox (im : Image) (s : State) : (s.committed im).outbox = s.outbox := rfl

@[simp] theorem State.withFetchWord_xsize (s : State) (nbits w : Nat) : (s.withFetchWord nbits w).xsize = s.xsize := rfl
@[simp] theorem State.withFetchWord_ysize (s : State) (nbits w : Nat) : (s.withFetchWord nbits w).ysize = s.ysize := rfl
@[simp] theorem State.withFetchWord_valid (s : State) (nbits w : Nat) : (s.withFetchWord nbits w).valid = s.valid := rfl
@[simp] theorem State.withFetchWord_img (s : State) (nbits w : Nat) : (s.withFetchWord nbits w).img = s.img := rfl
@[simp] theorem State.withFetchWord_status (s : State) (nbits w : Nat) : (s.withFetchWord nbits w).status = s.status := rfl
@[simp] theorem State.withFetchWord_result (s : State) (nbits w : Nat) : (s.withFetchWord nbits w).result = s.result := rfl
@[simp] theorem State.withFetchWord_argX (s : State) (nbits w : Nat) : (s.withFetchWord nbits w).argX = s.argX := rfl
@[simp] theorem State.withFetchWord_argY (s : State) (nbits w : Nat) : (s.withFetchWord nbits w).argY = s.argY := rfl
@[simp] theorem State.withFetchWord_argBytes (s : State) (nbits w : Nat) : (s.withFetchWord nbits w).argBytes = s.argBytes := rfl
@[simp] theorem State.withFetchWord_argDm (s : State) (nbits w : Nat) : (s.withFetchWord nbits w).argDm = s.argDm := rfl
@[simp] theorem State.withFetchWord_inbox (s : State) (nbits w : Nat) : (s.withFetchWord nbits w).inbox = .command (BitVec.ofNat 32 (w % 2 ^ nbits)) :: s.inbox := rfl
@[simp] theorem State.withFetchWord_outbox (s : State) (nbits w : Nat) : (s.withFetchWord nbits w).outbox = s.outbox := rfl

@[simp] theorem State.items_xsize (s : State) : s.items.xsize = s.xsize := rfl
@[simp] theorem State.items_ysize (s : State) : s.items.ysize = s.ysize := rfl
@[simp] theorem State.items_valid (s : State) : s.items.valid = s.valid := rfl
@[simp] theorem State.items_img (s : State) : s.items.img = s.img := rfl
@[simp] theorem State.items_status (s : State) : s.items.status = s.status := rfl
@[simp] theorem State.items_result (s : State) : s.items.result = s.result := rfl
@[simp] theorem State.items_argX (s : State) : s.items.argX = s.argX := rfl
@[simp] theorem State.items_argY (s : State) : s.items.argY = s.argY := rfl
@[simp] theorem State.items_argBytes (s : State) : s.items.argBytes = s.argBytes := rfl
@[simp] theorem State.items_argDm (s : State) : s.items.argDm = s.argDm := rfl
@[simp] theorem State.items_inbox (s : State) : s.items.inbox = [] := rfl
@[simp] theorem State.items_outbox (s : State) : s.items.outbox = [] := rfl
@[simp] theorem State.items_items (s : State) : s.items.items = s.items := rfl
@[simp] theorem State.items_reset : State.reset.items = State.reset := rfl

end Sys2Proof.Machine
end

