-- ==== Sys2Proof/Laws/Ops.lean ====
section
/-! SUPPORT. What each shared operation can do: one lemma says all the states it can answer. -/

namespace Sys2Proof.Machine

/-- The dimension check passes exactly on the ranges of R100. -/
theorem checkDims_none {x y : Nat} :
    checkDims x y = none ↔ 1 ≤ x ∧ x ≤ 255 ∧ 1 ≤ y ∧ y ≤ 48 ∧ x * y ≤ 1536 := by
  unfold checkDims
  simp only [Config.xsizeMin, Config.xsizeMax, Config.ysizeMin, Config.ysizeMax, Config.areaMax]
  split_ifs with h1 h2 h3 <;> simp <;> omega

/-- A failing dimension check names one of the three DimensionErrors (R221). -/
theorem checkDims_some {x y : Nat} {e : Err} (h : checkDims x y = some e) :
    e = dimensionError 1#8 ∨ e = dimensionError 2#8 ∨ e = dimensionError 3#8 := by
  unfold checkDims at h
  split_ifs at h <;> simp_all

/-- A validated image is the given one, and no check failed. -/
theorem validated_ok {o : Option Err} {im im' : Image} (h : validated o im = .ok im') :
    o = none ∧ im' = im := by
  cases o with
  | none => exact ⟨rfl, (by simpa [validated] using h.symm)⟩
  | some e => cases h

/-- The error is the one the checks found first. -/
theorem validated_error {o : Option Err} {im : Image} {e : Err} (h : validated o im = .error e) :
    o = some e := by
  cases o with
  | none => cases h
  | some e' => rw [validated] at h; simpa using h

/-- A construction answers the committed image or the raised error, nothing else. -/
theorem construct_next {r : Except Err Image} {s t : State} (h : construct r s = .next t) :
    (∃ im, r = .ok im ∧ t = s.committed im) ∨ (∃ e, r = .error e ∧ t = s.failed e) := by
  unfold construct at h
  split at h
  · next im => exact .inl ⟨im, rfl, by simpa [commit] using h.symm⟩
  · next e => exact .inr ⟨e, rfl, by simpa [raise] using h.symm⟩

/-- An accessor answers its result, its error, or NoImage(1), nothing else. -/
theorem access_next {r : Except Err Result} {s t : State} (h : access r s = .next t) :
    (s.valid = true ∧ ∃ v, r = .ok v ∧ t = s.completed v) ∨
      (s.valid = true ∧ ∃ e, r = .error e ∧ t = s.failed e) ∨
      (s.valid = false ∧ t = s.failed (noImage 1#8)) := by
  unfold access at h
  split at h
  · next hv =>
    split at h
    · next v => exact .inl ⟨hv, v, rfl, by simpa [complete] using h.symm⟩
    · next e => exact .inr (.inl ⟨hv, e, rfl, by simpa [raise] using h.symm⟩)
  · next hv => exact .inr (.inr ⟨by simpa using hv, by simpa [raise] using h.symm⟩)

/-- What any command can answer: a committed image (constructions only), a result (accessors only), or
a raised error (R230, R231). -/
theorem exec_next {i : Instr} {s t : State} (h : exec i s = .next t) :
    (constructs i = true ∧ ∃ im, t = s.committed im) ∨
      (constructs i = false ∧ s.valid = true ∧ ∃ v, t = s.completed v) ∨
      (∃ e, t = s.failed e) := by
  cases i <;> simp only [exec] at h
  case newZero | newRaw | decodeRaster | packDm =>
    rcases construct_next h with ⟨im, -, rfl⟩ | ⟨e, -, rfl⟩
    · exact .inl ⟨rfl, im, rfl⟩
    · exact .inr (.inr ⟨e, rfl⟩)
  all_goals
    rcases access_next h with ⟨hv, v, -, rfl⟩ | ⟨-, e, -, rfl⟩ | ⟨-, rfl⟩
    · exact .inr (.inl ⟨rfl, hv, v, rfl⟩)
    · exact .inr (.inr ⟨e, rfl⟩)
    · exact .inr (.inr ⟨_, rfl⟩)

/-- An accessor with an image held answers the result it computed. -/
theorem access_ok {v : Result} {s : State} (hv : s.valid = true) :
    access (.ok v) s = .next (s.completed v) := by
  simp [access, hv, complete]

theorem construct_ok (im : Image) (s : State) : construct (.ok im) s = .next (s.committed im) := rfl

theorem construct_error (e : Err) (s : State) : construct (.error e) s = .next (s.failed e) := rfl

/-- A byte write within capacity, and one beyond it (R31). -/
theorem hostWriteArgBytes_next {b : List Byte} {s t : State} (h : hostWriteArgBytes b s = .next t) :
    b.length ≤ Config.argBytesCap ∧ t = { s with argBytes := b } := by
  unfold hostWriteArgBytes at h
  split at h
  · next hb => exact ⟨hb, by simpa using h.symm⟩
  · cases h

/-- A dot-matrix write within capacity, and one beyond it (R31). -/
theorem hostWriteArgDm_next {m : List (List Bool)} {s t : State} (h : hostWriteArgDm m s = .next t) :
    dmFits m ∧ t = { s with argDm := m } := by
  unfold hostWriteArgDm at h
  split at h
  · next hm => exact ⟨hm, by simpa using h.symm⟩
  · cases h

/-- A host read hands one value back and changes nothing else (R60). -/
theorem hostRead_next {item : HostItem} {s t : State} (h : hostRead item s = .next t) :
    ∃ v, hostValue item s = .ok v ∧ t = { s with outbox := s.outbox ++ [v] } := by
  unfold hostRead at h
  split at h
  · next v hv => exact ⟨v, hv, by simpa using h.symm⟩
  · cases h

/-- What one host action can answer. -/
theorem performAction_next {a : HostAction} {s t : State} (h : performAction a s = .next t) :
    (∃ v, a = .writeArgX v ∧ t = { s with argX := v }) ∨
      (∃ v, a = .writeArgY v ∧ t = { s with argY := v }) ∨
      (∃ b, a = .writeArgBytes b ∧ b.length ≤ Config.argBytesCap ∧ t = { s with argBytes := b }) ∨
      (∃ m, a = .writeArgDm m ∧ dmFits m ∧ t = { s with argDm := m }) ∨
      (∃ w e, a = .command w ∧ decode w = .error e ∧ t = s.failed (illegalCommand e.detail)) ∨
      (∃ w i, a = .command w ∧ decode w = .ok i ∧ exec i s = .next t) ∨
      (∃ item v, a = .read item ∧ hostValue item s = .ok v ∧ t = { s with outbox := s.outbox ++ [v] }) ∨
      (a = .reset ∧ t = { State.reset with inbox := s.inbox, outbox := s.outbox }) := by
  cases a with
  | writeArgX v => exact .inl ⟨v, rfl, by simpa [performAction, hostWriteArgX] using h.symm⟩
  | writeArgY v => exact .inr (.inl ⟨v, rfl, by simpa [performAction, hostWriteArgY] using h.symm⟩)
  | writeArgBytes b =>
    obtain ⟨hb, ht⟩ := hostWriteArgBytes_next h
    exact .inr (.inr (.inl ⟨b, rfl, hb, ht⟩))
  | writeArgDm m =>
    obtain ⟨hm, ht⟩ := hostWriteArgDm_next h
    exact .inr (.inr (.inr (.inl ⟨m, rfl, hm, ht⟩)))
  | command w =>
    simp only [performAction, runWord] at h
    split at h
    · next e he =>
      exact .inr (.inr (.inr (.inr (.inl ⟨w, e, rfl, he, by simpa [raise] using h.symm⟩))))
    · next i hi => exact .inr (.inr (.inr (.inr (.inr (.inl ⟨w, i, rfl, hi, h⟩)))))
  | read item =>
    obtain ⟨v, hv, ht⟩ := hostRead_next h
    exact .inr (.inr (.inr (.inr (.inr (.inr (.inl ⟨item, v, rfl, hv, ht⟩))))))
  | reset =>
    exact .inr (.inr (.inr (.inr (.inr (.inr (.inr
      ⟨rfl, by simpa [performAction, hostReset] using h.symm⟩))))))

/-- What one step can answer: idle, or one host action performed (R270, R272). -/
theorem step_next {s t : State} (h : step s = .next t) :
    (s.inbox = [] ∧ t = s) ∨
      ∃ a rest, s.inbox = a :: rest ∧ performAction a { s with inbox := rest } = .next t := by
  unfold step takeAction at h
  split at h
  · next hi => exact .inl ⟨hi, by simpa using h.symm⟩
  · next a rest hi => exact .inr ⟨a, rest, hi, h⟩

end Sys2Proof.Machine
end

