-- ==== Sys2Proof/Laws/Memory.lean ====
section
/-! SUPPORT. Every operation that writes the image store keeps its canonical form, R24. -/

namespace Sys2Proof.Machine

/-- An image of legal dimensions whose length is what they say (R101). -/
abbrev Image.Sized (im : Image) : Prop :=
  1 ≤ im.x ∧ im.x ≤ 255 ∧ 1 ≤ im.y ∧ im.y ≤ 48 ∧ im.x * im.y ≤ 1536 ∧
    im.bytes.length = 8 * im.x * im.y

theorem zeroImage_sized {x y : Nat} {im : Image} (h : zeroImage x y = .ok im) : im.Sized := by
  obtain ⟨hd, rfl⟩ := validated_ok h
  obtain ⟨h1, h2, h3, h4, h5⟩ := checkDims_none.mp hd
  exact ⟨h1, h2, h3, h4, h5, List.length_replicate⟩

theorem rawImage_sized {x y : Nat} {b : List Byte} {im : Image} (h : rawImage x y b = .ok im) :
    im.Sized := by
  obtain ⟨he, rfl⟩ := validated_ok h
  obtain ⟨hd, hl⟩ := Option.or_eq_none_iff.mp he
  obtain ⟨h1, h2, h3, h4, h5⟩ := checkDims_none.mp hd
  exact ⟨h1, h2, h3, h4, h5, by simpa [rawLengthError] using hl⟩

theorem rasterImage_sized {b : List Byte} {im : Image} (h : rasterImage b = .ok im) : im.Sized := by
  obtain ⟨he, rfl⟩ := validated_ok h
  obtain ⟨-, he⟩ := Option.or_eq_none_iff.mp he
  obtain ⟨-, he⟩ := Option.or_eq_none_iff.mp he
  obtain ⟨h1, h2, h3, h4, h5⟩ := checkDims_none.mp (Option.or_eq_none_iff.mp he).1
  refine ⟨h1, h2, h3, h4, h5, ?_⟩
  rw [rasterBytes, invertBytes_length, packPixels_length]

/-- The structural checks of R162 pass only on a non-empty rectangle of multiples of 8. -/
theorem dmStructure_none {d : List (List Bool)} (h : dmStructure d = none) :
    (∀ col ∈ d, col.length = dmLength d) ∧ dmLength d % 8 = 0 ∧ d.length % 8 = 0 ∧ d.length ≠ 0 := by
  unfold dmStructure at h
  split_ifs at h with h1 h2 h3 h4
  exact ⟨by simpa using h1, by simpa using h2, by simpa using h3, h4⟩

theorem dmImage_sized {m : BitOrder} {d : List (List Bool)} {im : Image}
    (h : dmImage m d = .ok im) : im.Sized := by
  obtain ⟨he, rfl⟩ := validated_ok h
  obtain ⟨hs, hd⟩ := Option.or_eq_none_iff.mp he
  obtain ⟨h1, h2, h3, h4, h5⟩ := checkDims_none.mp hd
  have h8 : 8 * (d.length / 8) = d.length := by
    have := (dmStructure_none hs).2.2.1
    omega
  refine ⟨h1, h2, h3, h4, h5, ?_⟩
  rw [packPixels_length, h8]

theorem failed_wf {s : State} (e : Err) (h : Memory.wf s) : Memory.wf (s.failed e) := h

theorem completed_wf {s : State} (r : Result) (h : Memory.wf s) : Memory.wf (s.completed r) := h

theorem committed_wf {im : Image} (s : State) (h : im.Sized) : Memory.wf (s.committed im) := by
  obtain ⟨h1, h2, h3, h4, h5, h6⟩ := h
  have hx : (BitVec.ofNat 8 im.x).toNat = im.x := by simp; omega
  have hy : (BitVec.ofNat 8 im.y).toNat = im.y := by simp; omega
  refine ⟨fun _ => ?_, fun hv => by simp at hv⟩
  simp only [State.committed_xsize, State.committed_ysize, State.committed_img, hx, hy]
  exact ⟨h1, h2, h3, h4, h5, h6⟩

/-- A construction keeps the canonical form when the image it computed is sized. -/
theorem construct_wf {r : Except Err Image} {s t : State} (hr : ∀ im, r = .ok im → im.Sized)
    (hs : Memory.wf s) (h : construct r s = .next t) : Memory.wf t := by
  rcases construct_next h with ⟨im, he, rfl⟩ | ⟨e, -, rfl⟩
  · exact committed_wf s (hr im he)
  · exact failed_wf e hs

/-- An accessor keeps the canonical form. -/
theorem access_wf {r : Except Err Result} {s t : State} (hs : Memory.wf s)
    (h : access r s = .next t) : Memory.wf t := by
  rcases access_next h with ⟨-, v, -, rfl⟩ | ⟨-, e, -, rfl⟩ | ⟨-, rfl⟩
  · exact completed_wf v hs
  · exact failed_wf e hs
  · exact failed_wf _ hs

/-- In a state that satisfies R24 every pixel an accessor reads lies in IMG, so no accessor sees a free
value. -/
theorem px_in_image {s : State} (hs : Memory.wf s) (hv : s.valid = true) {r c : Nat}
    (hr : r < pixelHeight s) (hc : c < pixelWidth s) :
    s.img[imgIndex s c (r / 8)]? = some (byteAt s.img (imgIndex s c (r / 8))) := by
  obtain ⟨-, -, -, -, -, hl⟩ := hs.1 hv
  apply byteAt_of_lt
  unfold pixelHeight at hr
  unfold pixelWidth at hc
  have h1 : (c + 1) * s.ysize.toNat ≤ 8 * s.xsize.toNat * s.ysize.toNat := Nat.mul_le_mul_right _ hc
  rw [Nat.succ_mul] at h1
  unfold imgIndex
  omega

end Sys2Proof.Machine
end

