-- ==== Sys2Proof/Laws/Operands.lean ====
section
/-! SUPPORT. Reading a byte operand and a dot matrix, and the open capacities. -/

namespace Sys2Proof.Machine

/-- MemRead takes the byte at its address as the least significant digit (R15, R51). -/
theorem memRead_succ (b : List Byte) (a n : Nat) :
    memRead b a (n + 1) = (byteAt b a).toNat + 256 * memRead b (a + 1) n := by
  simp only [memRead, List.range_succ_eq_map, List.map_cons, List.map_map, List.sum_cons,
    Nat.add_zero, Nat.pow_zero, Nat.mul_one, ← List.sum_map_mul_left]
  congr 2
  apply List.map_congr_left
  intro k _
  simp only [Function.comp, Nat.pow_succ]
  rw [show a + (k + 1) = a + 1 + k by omega]
  ring

@[simp] theorem memRead_zero (b : List Byte) (a : Nat) : memRead b a 0 = 0 := by
  simp [memRead]

theorem sext32_of_lt {v : Nat} (h : v < 2147483648) : sext32 v = v := by
  rw [sext32, BitVec.toInt_eq_toNat_cond]
  simp
  omega

theorem sext32_of_ge {v : Nat} (h : 2147483648 ≤ v) (h' : v < 4294967296) :
    sext32 v = (v : Int) - 4294967296 := by
  rw [sext32, BitVec.toInt_eq_toNat_cond]
  simp
  omega

/-- An element that is there is read as it is, whatever the free value. -/
theorem dmBit_of_getElem? {d : List (List Bool)} {c r : Nat} {col : List Bool} {b : Bool}
    (hc : d[c]? = some col) (hr : col[r]? = some b) : dmBit d c r = b := by
  simp [dmBit, hc, hr]

/-- The least capacities of log entry 1. -/
theorem argBytesCap_ge : 12350 ≤ Config.argBytesCap := Nat.le_add_left _ _

theorem dmMaxCols_ge : 2048 ≤ Config.dmMaxCols := Nat.le_add_left _ _

theorem dmMaxLen_ge : 392 ≤ Config.dmMaxLen := Nat.le_add_left _ _

end Sys2Proof.Machine
end

