-- ==== Sys2Proof/Laws/PerInstr.lean ====
section
/-! SUPPORT. Statements per constructor of Instr: the fields of the encoded word (30_encoding.md R71,
R74, R75), read from the word bit by bit as the decoder reads them. -/

namespace Sys2Proof

/-- One bit of a laid-out word: OP below bit 8, M at bit 8, zero in RSV, IDX from bit 16. -/
theorem packWord_getLsbD (idx : BitVec 16) (m : Bool) (op : Byte) (k : Nat) (hk : k < 32) :
    (packWord idx m op).getLsbD k =
      if k < 8 then op.getLsbD k else if k = 8 then m else if k < 16 then false
      else idx.getLsbD (k - 16) := by
  unfold packWord
  simp only [BitVec.getLsbD_or, BitVec.getLsbD_shiftLeft, BitVec.getLsbD_setWidth,
    BitVec.getLsbD_ofBool]
  by_cases h8 : k < 8
  · simp [h8, hk, show k < 16 by omega]
  · have hop : op.getLsbD k = false := BitVec.getLsbD_of_ge _ _ (by omega)
    by_cases he : k = 8
    · subst he
      simp
    · by_cases h16 : k < 16
      · simp [h8, he, h16, hop, show k - 8 ≠ 0 by omega]
      · simp [h8, he, h16, hop, hk, show k - 8 ≠ 0 by omega, show k - 16 < 32 by omega]

theorem opField_packWord (idx : BitVec 16) (m : Bool) (op : Byte) : opField (packWord idx m op) = op := by
  apply BitVec.eq_of_getLsbD_eq
  intro i hi
  rw [opField, BitVec.getLsbD_extractLsb', packWord_getLsbD _ _ _ _ (by omega)]
  simp [hi]

theorem mField_packWord (idx : BitVec 16) (m : Bool) (op : Byte) : mField (packWord idx m op) = m := by
  rw [mField, packWord_getLsbD _ _ _ _ (by omega)]
  simp

theorem rsvField_packWord (idx : BitVec 16) (m : Bool) (op : Byte) :
    rsvField (packWord idx m op) = 0#7 := by
  apply BitVec.eq_of_getLsbD_eq
  intro i hi
  rw [rsvField, BitVec.getLsbD_extractLsb', packWord_getLsbD _ _ _ _ (by omega)]
  simp [show ¬9 + i < 8 by omega, show ¬9 + i = 8 by omega, show 9 + i < 16 by omega]

theorem idxField_packWord (idx : BitVec 16) (m : Bool) (op : Byte) :
    idxField (packWord idx m op) = idx := by
  apply BitVec.eq_of_getLsbD_eq
  intro i hi
  rw [idxField, BitVec.getLsbD_extractLsb', packWord_getLsbD _ _ _ _ (by omega)]
  simp [hi, show ¬16 + i < 8 by omega, show ¬16 + i = 8 by omega]

namespace Laws.EncodedFields

/-- The encoded word has the operation's opcode, RSV zero, and M and IDX as the instruction states them. -/
def Statement (i : Instr) : Prop :=
  opField (encode i) = i.op.code ∧ rsvField (encode i) = 0#7 ∧ mField (encode i) = i.mBit ∧
    idxField (encode i) = BitVec.ofNat 16 i.idx

theorem of_packWord (i : Instr) : Statement i :=
  ⟨opField_packWord _ _ _, rsvField_packWord _ _ _, mField_packWord _ _ _, idxField_packWord _ _ _⟩

theorem newZero : Statement .newZero := of_packWord _
theorem newRaw : Statement .newRaw := of_packWord _
theorem decodeRaster : Statement .decodeRaster := of_packWord _
theorem packDm (m : BitOrder) : Statement (.packDm m) := of_packWord _
theorem dotRow (idx : Nat) : Statement (.dotRow idx) := of_packWord _
theorem dotCol (idx : Nat) : Statement (.dotCol idx) := of_packWord _
theorem dotMatrix : Statement .dotMatrix := of_packWord _
theorem exportDef : Statement .exportDef := of_packWord _

end Laws.EncodedFields

end Sys2Proof
end

