-- ==== Sys2Proof/Laws/Raster.lean ====
section
/-! SUPPORT. The checks of DECODE_RASTER and the pixels of the image it packs. -/

namespace Sys2Proof.Machine

/-- The signature check, read byte by byte (R122). -/
theorem signature_check (b : List Byte) :
    (b.length < 2 ∨ byteAt b 0 ≠ Config.signature0 ∨ byteAt b 1 ≠ Config.signature1) ↔
      ¬(b[0]? = some 0x42#8 ∧ b[1]? = some 0x4D#8) := by
  rcases b with _ | ⟨a, _ | ⟨c, r⟩⟩
  · simp
  · simp
  · simp [byteAt, Config.signature0, Config.signature1]
    tauto

/-- The header checks pass on R122 to R125. -/
theorem rasterHeaderError_none {b : List Byte} (h : RasterHeaderOk b) : rasterHeaderError b = none := by
  obtain ⟨h0, h1, h2, h3, h4⟩ := h
  have hs := mt (signature_check b).mp (not_not.mpr ⟨h0, h1⟩)
  rw [rasterHeaderError, if_neg hs, if_neg (Nat.not_lt.mpr h2), if_neg (not_not.mpr h3),
    if_neg (not_not.mpr h4)]

theorem rasterWidthError_none {b : List Byte} (h : 1 ≤ rasterWidth b) : rasterWidthError b = none :=
  if_neg (Int.not_le.mpr h)

theorem rasterBoundError_none {b : List Byte} (h : rasterEnd b ≤ b.length) :
    rasterBoundError b = none :=
  if_neg (Nat.not_lt.mpr h)

/-- Legal sizes pass the dimension check (R126). -/
theorem checkDims_of_rasterSizeOk {b : List Byte} (h : RasterSizeOk b) :
    checkDims (rasterRowBytes b) (ceilDiv8 (rasterRows b)) = none := by
  obtain ⟨h1, h2, h3, h4, h5⟩ := h
  rw [checkDims_none]
  simp only [rasterRowBytes, rasterRows, ceilDiv8]
  exact ⟨by omega, by omega, by omega, by omega, h5⟩

/-- After the header and width checks, the dimension check and then the bound decide (R121). -/
theorem rasterError_of_headerOk {b : List Byte} (hh : RasterHeaderOk b) (hw : 1 ≤ rasterWidth b) :
    rasterError b =
      (checkDims (rasterRowBytes b) (ceilDiv8 (rasterRows b))).or (rasterBoundError b) := by
  rw [rasterError, rasterHeaderError_none hh, rasterWidthError_none hw, Option.none_or, Option.none_or]

/-- An accepted container's image (R121). -/
theorem rasterImage_ok {b : List Byte} (hh : RasterHeaderOk b) (hs : RasterSizeOk b)
    (he : rasterEnd b ≤ b.length) :
    rasterImage b = .ok ⟨rasterRowBytes b, ceilDiv8 (rasterRows b), rasterBytes b⟩ := by
  rw [rasterImage, rasterError_of_headerOk hh hs.1, checkDims_of_rasterSizeOk hs,
    rasterBoundError_none he, Option.none_or, validated]

/-- The bit of the packed image for column c and row 8 * band + i is the complement of the pixel (R133). -/
theorem rasterBytes_bit {b : List Byte} {c band i : Nat} (hc : c < 8 * rasterRowBytes b)
    (hb : band < ceilDiv8 (rasterRows b)) (hi : i < 8) :
    ∃ v, (rasterBytes b)[c * ceilDiv8 (rasterRows b) + band]? = some v ∧
      v.getLsbD (7 - i) = !rasterPixel b (8 * band + i) c := by
  refine ⟨_, by rw [rasterBytes, invertBytes_getElem?, packPixels_getElem? _ _ hc hb]; rfl, ?_⟩
  rw [complement_getLsbD _ _ (by omega), foldBits_msb_getLsbD _ _ hi]

end Sys2Proof.Machine
end

