-- ==== Sys2Proof/Laws/Run.lean ====
section
/-! SUPPORT. Runs: performing an action depends on the items of R20 alone, a step takes one action from
the inbox, and the equations of observeFrom and uptoLastCommand (70_reset_and_hazards.md R278). -/

namespace Sys2Proof.Machine

/-- An outcome with the host's two lists emptied. -/
def itemsOf : StepOutcome → StepOutcome
  | .next t => .next t.items
  | .fault f => .fault f
  | .refused r => .refused r

@[simp] theorem itemsOf_next (t : State) : itemsOf (.next t) = .next t.items := rfl

/-- States with the same items differ in the host's lists only. -/
theorem eq_of_items_eq {s s' : State} (h : s.items = s'.items) :
    s' = { s with inbox := s'.inbox, outbox := s'.outbox } := by
  have hf (f : State → State) : f s.items = f s'.items := congrArg f h
  exact (hf (fun t => { t with inbox := s'.inbox, outbox := s'.outbox })).symm

theorem construct_items (r : Except Err Image) (s : State) (l : List HostAction) (m : List HostValue) :
    itemsOf (construct r { s with inbox := l, outbox := m }) = itemsOf (construct r s) := by
  cases r <;> rfl

theorem access_items (r : Except Err Result) (s : State) (l : List HostAction) (m : List HostValue) :
    itemsOf (access r { s with inbox := l, outbox := m }) = itemsOf (access r s) := by
  obtain ⟨_, _, v, _⟩ := s
  cases v <;> cases r <;> rfl

theorem exec_items (i : Instr) (s : State) (l : List HostAction) (m : List HostValue) :
    itemsOf (exec i { s with inbox := l, outbox := m }) = itemsOf (exec i s) := by
  cases i
  case newZero | newRaw | decodeRaster | packDm => exact construct_items _ s l m
  case dotRow | dotCol => exact access_items _ s l m
  case dotMatrix => exact access_items (.ok (.columns (matrixColumns s))) s l m
  case exportDef => exact access_items (.ok (.bytes (exportBytes s))) s l m

/-- What an action does to the items of R20 depends on those items alone, not on the host's lists. -/
theorem performAction_items (a : HostAction) {s s' : State} (h : s.items = s'.items) :
    itemsOf (performAction a s') = itemsOf (performAction a s) := by
  rw [eq_of_items_eq h]
  generalize s'.inbox = l
  generalize s'.outbox = m
  cases a with
  | writeArgX v => rfl
  | writeArgY v => rfl
  | writeArgBytes b =>
    simp only [performAction, hostWriteArgBytes]
    split <;> rfl
  | writeArgDm d =>
    simp only [performAction, hostWriteArgDm]
    split <;> rfl
  | command w =>
    simp only [performAction, runWord]
    cases decode w with
    | error e => rfl
    | ok i => exact exec_items i s l m
  | read item =>
    have hv : hostValue item { s with inbox := l, outbox := m } = hostValue item s := by cases item <;> rfl
    simp only [performAction, hostRead, hv]
    cases hostValue item s <;> rfl
  | reset => rfl

/-- A state with an action waiting first performs it. -/
theorem step_cons (a : HostAction) (rest : List HostAction) (s : State) :
    step { s with inbox := a :: rest } = performAction a { s with inbox := rest } := rfl

/-- Performing an action leaves the inbox as it is: only taking one changes it. -/
theorem performAction_inbox {a : HostAction} {s t : State} (h : performAction a s = .next t) :
    t.inbox = s.inbox := by
  rcases performAction_next h with ⟨v, -, rfl⟩ | ⟨v, -, rfl⟩ | ⟨b, -, -, rfl⟩ | ⟨m, -, -, rfl⟩ |
    ⟨w, e, -, -, rfl⟩ | ⟨w, i, -, -, he⟩ | ⟨item, v, -, -, rfl⟩ | ⟨-, rfl⟩
  case inr.inr.inr.inr.inr.inl =>
    rcases exec_next he with ⟨-, im, rfl⟩ | ⟨-, -, v, rfl⟩ | ⟨e, rfl⟩ <;> rfl
  all_goals rfl

/-- The host's run of a machine, one step at a time. -/
theorem hostRun_next {M : Host.Core} {k : Nat} {s t : M.State} (h : M.step s = .next t) :
    M.run (k + 1) s = M.run k t := by
  simp only [Host.Core.run, h]

theorem hostRun_refused {M : Host.Core} {k : Nat} {s : M.State} {r : M.Refusal}
    (h : M.step s = .refused r) : M.run (k + 1) s = .refused r := by
  simp only [Host.Core.run, h]

/-- The same of this machine. -/
theorem coreRun_next {k : Nat} {s t : State} (h : step s = .next t) :
    Sys2Proof.core.run (k + 1) s = Sys2Proof.core.run k t :=
  hostRun_next (M := Sys2Proof.core) h

theorem coreRun_refused {k : Nat} {s : State} {r : Refusal} (h : step s = .refused r) :
    Sys2Proof.core.run (k + 1) s = .refused r :=
  hostRun_refused (M := Sys2Proof.core) h

/-- States with the same items are observed the same. -/
theorem observed_of_items_eq {s s' : State} (h : s.items = s'.items) : observed s = observed s' := by
  rw [eq_of_items_eq h]
  rfl

@[simp] theorem observeFrom_nil (s : State) : observeFrom [] s = some ⟨[], s.items⟩ := rfl

theorem observeFrom_cons_next {a : HostAction} {rest : List HostAction} {s t : State}
    (h : step { s with inbox := a :: rest } = .next t) :
    observeFrom (a :: rest) s = (observeFrom rest t).map (Observation.after a t) := by
  rw [observeFrom, h]

theorem observeFrom_cons_refused {a : HostAction} {rest : List HostAction} {s : State} {r : Refusal}
    (h : step { s with inbox := a :: rest } = .refused r) : observeFrom (a :: rest) s = none := by
  rw [observeFrom, h]

@[simp] theorem after_final (a : HostAction) (t : State) (o : Observation) :
    (o.after a t).final = o.final := rfl

theorem uptoLastCommand_of_none {as : List HostAction} (h : as.any HostAction.isCommand = false) :
    uptoLastCommand as = [] := by
  cases as with
  | nil => rfl
  | cons a rest => rw [uptoLastCommand, h]; rfl

theorem uptoLastCommand_cons {a : HostAction} {rest : List HostAction}
    (h : (a :: rest).any HostAction.isCommand = true) :
    uptoLastCommand (a :: rest) = a :: uptoLastCommand rest := by
  rw [uptoLastCommand, h]; rfl

end Sys2Proof.Machine
end

