-- ==== Sys2Proof/Laws/Views.lean ====
section
/-! SUPPORT. What each accessor answers when it completes, and the elements of its result. -/

namespace Sys2Proof.Machine

@[simp] theorem rowBits_length (s : State) (r : Nat) : (rowBits s r).length = pixelWidth s := by
  simp [rowBits]

@[simp] theorem colBits_length (s : State) (c : Nat) : (colBits s c).length = pixelHeight s := by
  simp [colBits]

@[simp] theorem matrixColumns_length (s : State) : (matrixColumns s).length = pixelWidth s := by
  simp [matrixColumns]

theorem rowBits_getElem? {s : State} (r : Nat) {c : Nat} (h : c < pixelWidth s) :
    (rowBits s r)[c]? = some (px s r c) := by
  simp [rowBits, h]

theorem colBits_getElem? {s : State} (c : Nat) {r : Nat} (h : r < pixelHeight s) :
    (colBits s c)[r]? = some (px s r c) := by
  simp [colBits, h]

theorem matrixColumns_getElem? {s : State} {c : Nat} (h : c < pixelWidth s) :
    (matrixColumns s)[c]? = some (colBits s c) := by
  simp [matrixColumns, h]

theorem execDotRow_completes {s : State} {r : Nat} (hv : s.valid = true) (h : r < pixelHeight s) :
    execDotRow r s = .next (s.completed (.bits (rowBits s r))) := by
  rw [execDotRow, dotRowResult, if_neg (Nat.not_le.mpr h), access_ok hv]

theorem execDotCol_completes {s : State} {c : Nat} (hv : s.valid = true) (h : c < pixelWidth s) :
    execDotCol c s = .next (s.completed (.bits (colBits s c))) := by
  rw [execDotCol, dotColResult, if_neg (Nat.not_le.mpr h), access_ok hv]

theorem execDotMatrix_completes {s : State} (hv : s.valid = true) :
    execDotMatrix s = .next (s.completed (.columns (matrixColumns s))) := access_ok hv

theorem execExportDef_completes {s : State} (hv : s.valid = true) :
    execExportDef s = .next (s.completed (.bytes (exportBytes s))) := access_ok hv

/-- A pixel read from the byte that is there. -/
theorem px_of_byte {s : State} {r c : Nat} {v : Byte}
    (h : s.img[c * s.ysize.toNat + r / 8]? = some v) : px s r c = v.getLsbD (7 - r % 8) := by
  rw [px, imgIndex, byteAt_of_getElem? h]

end Sys2Proof.Machine
end

