-- ==== Sys2Proof/Tests/Slice0.lean ====
section
/-! SUPPORT. Tests of the model: the well-formedness smoke test, words written out from the encoding
tables, one step per instruction against the vectors of 95_test_vectors.md, and for every obligation
with hypotheses a witness that meets them, each clause at a boundary of its range. -/

namespace Sys2Proof.Tests

open Sys2Proof Sys2Proof.Machine

/-! ### Helpers -/

/-- The state a step goes to, if it goes to one. -/
def nextOf (o : StepOutcome) : Option State :=
  match o with
  | .next t => some t
  | .fault _ => none
  | .refused _ => none

/-- STATUS and RESULT after an outcome. -/
def seen (o : StepOutcome) : Option (Half × Result) := (nextOf o).map observed

/-- VALID, XSIZE, YSIZE and IMG after an outcome. -/
def imageOf (o : StepOutcome) : Option (Bool × Byte × Byte × List Byte) :=
  (nextOf o).map (fun t => (t.valid, t.xsize, t.ysize, t.img))

/-- The reset state with one host action waiting. -/
def waiting (a : HostAction) : State := { State.reset with inbox := [a] }

/-- The reset state holding an image. -/
def holding (x y : Byte) (img : List Byte) : State :=
  { State.reset with xsize := x, ysize := y, valid := true, img := img }

/-- The reset state with dimension operands and a byte operand. -/
def sized (x y : Half) (b : List Byte) : State := { State.reset with argX := x, argY := y, argBytes := b }

/-- The reset state with a byte operand. -/
def bytesGiven (b : List Byte) : State := { State.reset with argBytes := b }

/-- The reset state with a dot-matrix operand. -/
def matrixGiven (d : List (List Bool)) : State := { State.reset with argDm := d }

/-- Columns written as strings of 0 and 1. -/
def bits (s : String) : List Bool := s.toList.map (fun c => c == '1')

/-- `n` columns of `l` zeros. -/
def zeros (n l : Nat) : List (List Bool) := List.replicate n (List.replicate l false)

/-- A header of 34 bytes: offset 34, and the width, height, depth and compression fields given. -/
def header (width height : List Byte) (depth compression : Byte) : List Byte :=
  [0x42#8, 0x4D#8, 0#8, 0#8, 0#8, 0#8, 0#8, 0#8, 0#8, 0#8, 34#8, 0#8, 0#8, 0#8, 40#8, 0#8, 0#8, 0#8] ++
    width ++ height ++ [1#8, 0#8, depth, 0#8, compression, 0#8, 0#8, 0#8]

/-- The image of V-B8, 1 by 2. -/
def imageB8 : State :=
  holding 1#8 2#8 [0x01#8, 0x80#8, 0#8, 0#8, 0#8, 0#8, 0#8, 0xFF#8, 0xFF#8, 0#8, 0#8, 0#8, 0#8, 0#8, 0#8, 0#8]

/-- Container V-D2 but for its header, which ends at byte 33: 8 by 2, bottom-up. -/
def bottomUp : List Byte :=
  header [8#8, 0#8, 0#8, 0#8] [2#8, 0#8, 0#8, 0#8] 1#8 0#8 ++
    [0x0F#8, 0#8, 0#8, 0#8, 0xF0#8, 0#8, 0#8, 0#8]

/-- Container V-D3 in the same way: 8 by -2, top-down. -/
def topDown : List Byte :=
  header [8#8, 0#8, 0#8, 0#8] [0xFE#8, 0xFF#8, 0xFF#8, 0xFF#8] 1#8 0#8 ++
    [0x0F#8, 0#8, 0#8, 0#8, 0xF0#8, 0#8, 0#8, 0#8]

/-- The matrix of V-P12: column c has only bit c set. -/
def diagonal : List (List Bool) :=
  (List.range 8).map (fun c => (List.range 8).map (fun r => r == c))

/-! ### WellFormed -/

/-- R73: an index that IDX cannot hold is refused, and the largest it can hold is not. -/
theorem test_wellFormed_refuses_long_index :
    ¬WellFormed (.dotRow 65536) ∧ ¬WellFormed (.dotCol 65536) ∧ WellFormed (.dotRow 65535) ∧
      WellFormed (.dotCol 65535) := by decide

/-! ### Decoding: words written out from R71, R74 and R75 (95_test_vectors.md section 2) -/

theorem test_decode_newZero : decode 0b00000000000000000000000000000001#32 = .ok .newZero := by decide
theorem test_decode_newRaw : decode 0b00000000000000000000000000000010#32 = .ok .newRaw := by decide
theorem test_decode_decodeRaster :
    decode 0b00000000000000000000000000000011#32 = .ok .decodeRaster := by decide
theorem test_decode_packDm :
    decode 0b00000000000000000000000000000100#32 = .ok (.packDm .lsbFirst) ∧
      decode 0b00000000000000000000000100000100#32 = .ok (.packDm .msbFirst) := by decide
theorem test_decode_dotRow :
    decode 0b00000000000010010000000000010000#32 = .ok (.dotRow 9) ∧
      decode 0b11111111111111110000000000010000#32 = .ok (.dotRow 65535) := by decide
theorem test_decode_dotCol : decode 0b00000000000011110000000000010001#32 = .ok (.dotCol 15) := by decide
theorem test_decode_dotMatrix : decode 0b00000000000000000000000000010010#32 = .ok .dotMatrix := by decide
theorem test_decode_exportDef : decode 0b00000000000000000000000000100000#32 = .ok .exportDef := by decide

/-- V-E1 to V-E11: illegal words and the check each fails first. -/
theorem test_decode_illegal_words :
    decode 0x00000000#32 = .error .unknownOp ∧ decode 0x00000005#32 = .error .unknownOp ∧
      decode 0xFFFFFFFF#32 = .error .unknownOp ∧ decode 0x00000204#32 = .error .rsvSet ∧
      decode 0x00008010#32 = .error .rsvSet ∧ decode 0x00000101#32 = .error .mSet ∧
      decode 0x00000112#32 = .error .mSet ∧ decode 0x00010012#32 = .error .idxSet ∧
      decode 0x00010104#32 = .error .idxSet ∧ decode 0x00010201#32 = .error .rsvSet ∧
      decode 0x00010101#32 = .error .mSet := by decide

/-- R54: the bytes 10 00 09 00 carry DOT_ROW 9. -/
theorem test_decodeBytes : decodeBytes [0x10#8, 0x00#8, 0x09#8, 0x00#8] = some (.dotRow 9) := by decide

/-- V-E12: an illegal word with no image held reports IllegalCommand. -/
theorem test_illegal_word_before_noImage :
    seen (step (waiting (.command 0x00000112#32))) = some (0x0304#16, .none) := by decide

/-- R270: a placed word runs on the very next step after reset. -/
theorem test_withFetchWord :
    seen (step (State.reset.withFetchWord 32 0x00000012)) = some (0x0105#16, .none) := by decide

/-- Program P1, step 1 (95_test_vectors.md section 9): DOT_MATRIX after reset. The operand write that
follows the last command is no part of the run. -/
theorem test_observeRun_P1_step1 :
    observeRun [.command 0x00000012#32, .writeArgX 2#16] =
      some ⟨[(0x0105#16, .none)], { State.reset with status := 0x0105#16 }⟩ := by decide

/-- R79: lines with a list of bytes and a list of columns; a space inside `:=` is no operand write. -/
theorem test_assemble_lists :
    assembleLine "ARG_DM := [[1, 0], [0, 1]]".toList =
        some (.writeArgDm [[true, false], [false, true]]) ∧
      assembleLine "ARG_BYTES := []".toList = some (.writeArgBytes []) ∧
      assembleLine "ARG_X : = 2".toList = none ∧ assembleLine "dot_row 1".toList = none := by
  decide +kernel

/-! ### One step per instruction (the vector of 95_test_vectors.md in each name or docstring) -/

/-- V-B1. -/
theorem test_newZero_V_B1 :
    imageOf (exec .newZero (sized 2#16 1#16 [])) = some (true, 2#8, 1#8, List.replicate 16 0#8) := by
  decide

/-- V-S3, 193 by 8: the product is 1544. -/
theorem test_newZero_V_S3 : seen (exec .newZero (sized 193#16 8#16 [])) = some (0x0301#16, .none) := by
  decide

/-- V-B4. -/
theorem test_newRaw_V_B4 :
    imageOf (exec .newRaw (sized 1#16 1#16 [0x80#8, 0x40#8, 0x20#8, 0x10#8, 8#8, 4#8, 2#8, 1#8])) =
      some (true, 1#8, 1#8, [0x80#8, 0x40#8, 0x20#8, 0x10#8, 8#8, 4#8, 2#8, 1#8]) := by decide

/-- V-B7: dimensions before the length. -/
theorem test_newRaw_V_B7 : seen (exec .newRaw (sized 0#16 1#16 [])) = some (0x0101#16, .none) := by decide

/-- V-D2: bottom-up. -/
theorem test_decodeRaster_V_D2 :
    imageOf (exec .decodeRaster (bytesGiven bottomUp)) =
      some (true, 1#8, 1#8, [0x40#8, 0x40#8, 0x40#8, 0x40#8, 0x80#8, 0x80#8, 0x80#8, 0x80#8]) := by
  decide +kernel

/-- V-D4: a ninth row, so two bands, the second with filler rows. -/
theorem test_decodeRaster_V_D4 :
    imageOf (exec .decodeRaster (bytesGiven
      (header [8#8, 0#8, 0#8, 0#8] [0xF7#8, 0xFF#8, 0xFF#8, 0xFF#8] 1#8 0#8 ++
        [0x80#8, 0x40#8, 0x20#8, 0x10#8, 8#8, 4#8, 2#8, 1#8, 0x80#8].flatMap
          (fun b => [b, 0#8, 0#8, 0#8])))) =
      some (true, 1#8, 2#8, [0x7F#8, 0x00#8, 0xBF#8, 0x80#8, 0xDF#8, 0x80#8, 0xEF#8, 0x80#8,
        0xF7#8, 0x80#8, 0xFB#8, 0x80#8, 0xFD#8, 0x80#8, 0xFE#8, 0x80#8]) := by
  decide +kernel

/-- V-P12, both orders. -/
theorem test_packDm_V_P12 :
    imageOf (exec (.packDm .msbFirst) (matrixGiven diagonal)) =
        some (true, 1#8, 1#8, [0x80#8, 0x40#8, 0x20#8, 0x10#8, 8#8, 4#8, 2#8, 1#8]) ∧
      imageOf (exec (.packDm .lsbFirst) (matrixGiven diagonal)) =
        some (true, 1#8, 1#8, [1#8, 2#8, 4#8, 8#8, 0x10#8, 0x20#8, 0x40#8, 0x80#8]) := by
  decide +kernel

/-- V-P14: 2 by 12, the length before the count. -/
theorem test_packDm_V_P14 :
    seen (exec (.packDm .msbFirst) (matrixGiven (zeros 2 12))) = some (0x0802#16, .none) := by decide

/-- V-B8, row 8, and V-A3. -/
theorem test_dotRow_V_B8 :
    seen (exec (.dotRow 8) imageB8) = some (0x0000#16, .bits (bits "10010000")) ∧
      seen (exec (.dotRow 16) imageB8) = some (0x0103#16, .none) := by decide +kernel

/-- V-B8, column 0, and V-A6. -/
theorem test_dotCol_V_B8 :
    seen (exec (.dotCol 0) imageB8) = some (0x0000#16, .bits (bits "0000000110000000")) ∧
      seen (exec (.dotCol 8) imageB8) = some (0x0203#16, .none) := by decide +kernel

/-- V-A7. -/
theorem test_dotMatrix_V_A7 :
    seen (exec .dotMatrix imageB8) = some (0x0000#16, .columns
      [bits "0000000110000000", bits "0000000000000000", bits "0000000000000000", bits "0000000011111111",
        bits "1111111100000000", bits "0000000000000000", bits "0000000000000000",
        bits "0000000000000000"]) := by decide +kernel

/-- V-X2 and V-X4. -/
theorem test_exportDef_V_X2 :
    seen (exec .exportDef (holding 1#8 1#8
        [0x40#8, 0x40#8, 0x40#8, 0x40#8, 0x80#8, 0x80#8, 0x80#8, 0x80#8])) =
        some (0x0000#16, .bytes
          [1#8, 1#8, 0x40#8, 0x40#8, 0x40#8, 0x40#8, 0x80#8, 0x80#8, 0x80#8, 0x80#8]) ∧
      seen (exec .exportDef State.reset) = some (0x0105#16, .none) := by decide

/-! ### Witnesses: states and operands that meet the hypotheses of each obligation

The witness of obligation <Name> is witness_<Name>. -/

/-- A rectangle of zeros has columns of one length. -/
theorem zeros_rect (n l : Nat) : DmRect (zeros n l) l := by
  intro col h
  rw [List.eq_of_mem_replicate h, List.length_replicate]

theorem zeros_length (n l : Nat) : (zeros n l).length = n := List.length_replicate

theorem witness_ResetRestoresEveryItemAndAloneClearsValid :
    (waiting .reset).inbox = .reset :: [] ∧
      ∃ s t : State, step s = .next t ∧ s.valid = true ∧ t.valid = false :=
  ⟨rfl, { imageB8 with inbox := [.reset] }, State.reset, rfl, rfl, rfl⟩

/-- Both sides of each capacity: exactly at it, and one more. -/
theorem witness_HostWriteSetsOneOperandWithinCapacity :
    (waiting (.writeArgX 0xFFFF#16)).inbox = .writeArgX 0xFFFF#16 :: [] ∧
      (waiting (.writeArgY 0xFFFF#16)).inbox = .writeArgY 0xFFFF#16 :: [] ∧
      (List.replicate Config.argBytesCap 0#8).length ≤ Config.argBytesCap ∧
      Config.argBytesCap < (List.replicate (Config.argBytesCap + 1) 0#8).length ∧
      (zeros Config.dmMaxCols Config.dmMaxLen).length ≤ Config.dmMaxCols ∧
      (∀ col ∈ zeros Config.dmMaxCols Config.dmMaxLen, col.length ≤ Config.dmMaxLen) ∧
      Config.dmMaxCols < (zeros (Config.dmMaxCols + 1) 0).length ∧
      (∃ col ∈ zeros 1 (Config.dmMaxLen + 1), Config.dmMaxLen < col.length) := by
  refine ⟨rfl, rfl, ?_, ?_, ?_, ?_, ?_, ?_⟩
  · exact Nat.le_of_eq List.length_replicate
  · rw [List.length_replicate]; exact Nat.lt_add_one _
  · exact Nat.le_of_eq (zeros_length _ _)
  · exact fun col h => Nat.le_of_eq (zeros_rect _ _ col h)
  · rw [zeros_length]; exact Nat.lt_add_one _
  · exact ⟨_, List.mem_replicate.mpr ⟨Nat.one_ne_zero, rfl⟩, by
      rw [List.length_replicate]; exact Nat.lt_add_one _⟩

theorem witness_HostReadsImageOnlyBelowItsLength :
    ∃ s : State, s.inbox = .read (.imgByte 15) :: [] ∧ s.img[15]? = some 0#8 ∧ s.img.length ≤ 16 :=
  ⟨{ imageB8 with inbox := [.read (.imgByte 15)] }, rfl, rfl, by decide⟩

theorem witness_HostReadsRegistersWithoutSideEffect :
    (waiting (.read .status)).inbox = .read .status :: [] ∧
      (HostItem.status, HostValue.half (waiting (.read .status)).status) ∈
        [(HostItem.valid, HostValue.flag false), (HostItem.status, HostValue.half 0#16)] := by decide

theorem witness_ImageStaysUntilConstructionOrReset :
    State.reset.inbox = [] ∧ ∃ t, step State.reset = .next t := ⟨rfl, _, rfl⟩

theorem witness_DecodeOfEncodeIsTheInstruction :
    WellFormed (.dotRow 65535) ∧ WellFormed (.dotCol 0) ∧ WellFormed (.packDm .msbFirst) := by decide

theorem witness_EncodeOfDecodeIsTheWord : decode 0xFFFF0011#32 = .ok (.dotCol 65535) := by decide

theorem witness_DecodeFollowsMatchAndMask :
    decode 0x00000104#32 = .ok (.packDm .msbFirst) ∧ decode 0xFFFF0010#32 = .ok (.dotRow 65535) ∧
      decode 0x00000011#32 = .ok (.dotCol 0) ∧ 0x00000104#32 &&& 0xFFFFFEFF#32 = 0x00000004#32 := by
  decide

/-- One word for each clause, in their order: V-E2, V-E4, V-E6, V-E8 and a legal one. -/
theorem witness_IllegalWordReportsItsFirstFailingCheck :
    let known : Word → Prop := fun w =>
      w.toNat % 256 ∈ [0x01, 0x02, 0x03, 0x04, 0x10, 0x11, 0x12, 0x20]
    let rsv : Word → Nat := fun w => w.toNat / 512 % 128
    let m : Word → Nat := fun w => w.toNat / 256 % 2
    let idx : Word → Nat := fun w => w.toNat / 65536
    ¬known 0x00000005#32 ∧ (known 0x00000204#32 ∧ rsv 0x00000204#32 ≠ 0) ∧
      (known 0x00000101#32 ∧ rsv 0x00000101#32 = 0 ∧ m 0x00000101#32 ≠ 0) ∧
      (known 0x00010012#32 ∧ rsv 0x00010012#32 = 0 ∧ m 0x00010012#32 = 0 ∧ idx 0x00010012#32 ≠ 0) ∧
      (known 0xFFFF0010#32 ∧ rsv 0xFFFF0010#32 = 0 ∧ m 0xFFFF0010#32 = 0) ∧
      (known 0x00000104#32 ∧ rsv 0x00000104#32 = 0 ∧ idx 0x00000104#32 = 0) := by decide

theorem witness_StepRunsTheDecodedCommand :
    (waiting (.command 0xFFFF0010#32)).inbox = .command 0xFFFF0010#32 :: [] ∧
      decode 0xFFFF0010#32 = .ok (.dotRow 65535) := by decide

theorem witness_FetchWordRunsOnTheNextStep : decodeTableWord 32 0x00090010 = some (.dotRow 9) := by decide

/-- The two ends of the index range. -/
theorem witness_AssemblerPlacesTheDecimalIndex :
    (∀ c ∈ ['6', '5', '5', '3', '5'], '0' ≤ c ∧ c ≤ '9') ∧
      ['6', '5', '5', '3', '5'].foldl (fun a c => 10 * a + (c.toNat - 48)) 0 = 65535 ∧
      ['0'].foldl (fun a c => 10 * a + (c.toNat - 48)) 0 = 0 :=
  ⟨by simp, by simp, by simp⟩

theorem witness_EveryCommandCompletesInOneStep :
    (waiting (.command 0xFFFFFFFF#32)).inbox = .command 0xFFFFFFFF#32 :: [] := rfl

/-- Every kind of action that no state refuses, the operand writes exactly at their capacities. -/
theorem witness_RunObservesEveryCommand :
    ∀ a ∈ [HostAction.writeArgBytes (List.replicate Config.argBytesCap 0#8),
      .writeArgDm (zeros Config.dmMaxCols Config.dmMaxLen), .writeArgX 0xFFFF#16, .writeArgY 0#16,
      .read .status, .command 0xFFFFFFFF#32, .reset], NeverRefused a := by
  intro a h
  simp only [List.mem_cons, List.not_mem_nil, or_false] at h
  rcases h with rfl | rfl | rfl | rfl | rfl | rfl | rfl
  · exact Nat.le_of_eq List.length_replicate
  · exact ⟨Nat.le_of_eq (zeros_length _ _), fun col h => Nat.le_of_eq (zeros_rect _ _ col h)⟩
  · trivial
  · trivial
  · exact fun i h => HostItem.noConfusion h
  · trivial
  · trivial

theorem witness_CommandsKeepOperandRegisters :
    ∃ t, exec .newZero (sized 2#16 1#16 []) = .next t := ⟨_, rfl⟩

theorem witness_AccessorsWriteOnlyStatusAndResult :
    constructs (.dotRow 15) = false ∧ ∃ t, exec (.dotRow 15) imageB8 = .next t := ⟨rfl, _, rfl⟩

theorem witness_FailedCommandKeepsAllButStatus :
    ∃ t, exec (.dotRow 16) imageB8 = .next t ∧ t.status ≠ 0x0000#16 := ⟨_, rfl, by decide⟩

theorem witness_ResultDescribesTheLastCommand :
    (∃ t, exec (.dotRow 16) imageB8 = .next t ∧ t.status ≠ 0x0000#16) ∧
      (∃ t, exec (.dotRow 15) imageB8 = .next t ∧ t.status = 0x0000#16) ∧
      (∃ t, exec .newZero (sized 2#16 1#16 []) = .next t ∧ t.status = 0x0000#16) :=
  ⟨⟨_, rfl, by decide⟩, ⟨_, rfl, by decide⟩, ⟨_, rfl, by decide⟩⟩

theorem witness_EachCommandReportsOnlyItsErrors :
    ∃ t, exec (.packDm .lsbFirst) State.reset = .next t := ⟨_, rfl⟩

/-- Every field of the invariant, on a state with an image held. -/
theorem imageB8_inv : Inv imageB8 :=
  ⟨by decide, by decide, fun h => absurd rfl h, Nat.zero_le _, Nat.zero_le _,
    fun _ h => absurd h List.not_mem_nil⟩

theorem witness_EveryStepKeepsTheInvariant :
    Inv imageB8 ∧ ∃ t, step imageB8 = .next t := ⟨imageB8_inv, _, rfl⟩

/-- The largest width and the largest area. -/
theorem witness_ImageIsWithinItsLimits :
    Memory.wf (holding 255#8 6#8 (List.replicate 12240 0#8)) ∧
      Memory.wf (holding 32#8 48#8 (List.replicate 12288 0#8)) := by
  constructor <;> refine ⟨fun _ => ⟨by decide, by decide, by decide, by decide, by decide, ?_⟩,
    fun h => Bool.noConfusion h⟩ <;> exact List.length_replicate

/-- Each clause of CheckDims at its ends. -/
theorem witness_CheckDimsReportsFirstViolation :
    checkDims 0 1 = some ⟨.dimensionError, 1#8⟩ ∧ checkDims 256 49 = some ⟨.dimensionError, 1#8⟩ ∧
      checkDims 255 0 = some ⟨.dimensionError, 2#8⟩ ∧ checkDims 1 49 = some ⟨.dimensionError, 2#8⟩ ∧
      checkDims 193 8 = some ⟨.dimensionError, 3#8⟩ ∧ checkDims 32 48 = none ∧ checkDims 255 6 = none ∧
      checkDims 1 1 = none := by decide

theorem witness_ConstructionsIgnoreTheHeldImage :
    constructs .decodeRaster = true ∧ KeepsOperands State.reset imageB8 := by decide

/-- Each clause of NEW_ZERO at its ends: 0 and 256; 0 and 49; 193 by 8; 32 by 48, with the last row and
column of that image. -/
theorem witness_NewZeroBuildsTheZeroImage :
    ((sized 0#16 1#16 []).argX.toNat < 1 ∧ 255 < (sized 256#16 1#16 []).argX.toNat) ∧
      ((sized 255#16 0#16 []).argY.toNat < 1 ∧ 48 < (sized 1#16 49#16 []).argY.toNat) ∧
      1536 < (sized 193#16 8#16 []).argX.toNat * (sized 193#16 8#16 []).argY.toNat ∧
      (sized 32#16 48#16 []).argX.toNat * (sized 32#16 48#16 []).argY.toNat ≤ 1536 ∧
      383 < 8 * (sized 32#16 48#16 []).argY.toNat ∧ 255 < 8 * (sized 32#16 48#16 []).argX.toNat := by
  decide

/-- The length clauses of NEW_RAW at 7, 8 and 9 bytes; its dimension clauses are those of NEW_ZERO. -/
theorem witness_NewRawStoresTheBytesVerbatim :
    (sized 1#16 1#16 (List.replicate 7 0#8)).argBytes.length ≠ 8 * 1 * 1 ∧
      (sized 1#16 1#16 (List.replicate 9 0#8)).argBytes.length ≠ 8 * 1 * 1 ∧
      (sized 1#16 1#16 (List.replicate 8 0#8)).argBytes.length = 8 * 1 * 1 ∧
      (sized 0#16 1#16 []).argX.toNat < 1 ∧ 48 < (sized 1#16 49#16 []).argY.toNat ∧
      1536 < (sized 193#16 8#16 []).argX.toNat * (sized 193#16 8#16 []).argY.toNat := by decide

theorem witness_MemReadIsLittleEndian :
    0 + 4 ≤ [1#8, 2#8, 3#8, 4#8].length ∧ memRead [1#8, 2#8, 3#8, 4#8] 0 4 = 0x04030201 := by
  decide +kernel

/-- The shortest header, and the two signs of width and height at the ends of their ranges. -/
theorem witness_HeaderFieldsAreReadAtTheirOffsets :
    34 ≤ (header [0xFF#8, 0xFF#8, 0xFF#8, 0x7F#8] [0#8, 0#8, 0#8, 0x80#8] 1#8 0#8).length ∧
      rasterWidth (header [0xFF#8, 0xFF#8, 0xFF#8, 0x7F#8] [0#8, 0#8, 0#8, 0x80#8] 1#8 0#8) = 2147483647 ∧
      rasterHeight (header [0xFF#8, 0xFF#8, 0xFF#8, 0x7F#8] [0#8, 0#8, 0#8, 0x80#8] 1#8 0#8) =
        -2147483648 := by decide +kernel

/-- One container for each clause of DECODE_RASTER's errors, in their order: V-D7, V-D9, V-D10, V-D11,
V-D13 and V-D17 (width 0 and 2041), V-D15 and V-D19 (height 0 and 385), V-D20, and V-D12. -/
theorem witness_DecodeRasterReportsItsFirstFailingCheck :
    let one : List Byte := [1#8, 0#8, 0#8, 0#8]
    let eight : List Byte := [8#8, 0#8, 0#8, 0#8]
    ¬(([0x42#8, 0x4E#8] : List Byte)[0]? = some 0x42#8 ∧ ([0x42#8, 0x4E#8] : List Byte)[1]? = some 0x4D#8) ∧
      ((header eight one 1#8 0#8).take 33)[1]? = some 0x4D#8 ∧
      ((header eight one 1#8 0#8).take 33).length < 34 ∧
      rasterDepth (header eight one 4#8 0#8) ≠ 1 ∧
      (rasterDepth (header eight one 1#8 1#8) = 1 ∧ rasterCompression (header eight one 1#8 1#8) ≠ 0) ∧
      (RasterHeaderOk (header [0#8, 0#8, 0#8, 0#8] one 1#8 0#8) ∧
        rasterWidth (header [0#8, 0#8, 0#8, 0#8] one 1#8 0#8) < 1) ∧
      2040 < rasterWidth (header [0xF9#8, 7#8, 0#8, 0#8] one 1#8 0#8) ∧
      (rasterHeight (header eight [0#8, 0#8, 0#8, 0#8] 1#8 0#8)).natAbs = 0 ∧
      384 < (rasterHeight (header eight [0x81#8, 1#8, 0#8, 0#8] 1#8 0#8)).natAbs ∧
      (rasterWidth (header [8#8, 1#8, 0#8, 0#8] [0x80#8, 1#8, 0#8, 0#8] 1#8 0#8) = 264 ∧
        (rasterHeight (header [8#8, 1#8, 0#8, 0#8] [0x80#8, 1#8, 0#8, 0#8] 1#8 0#8)).natAbs = 384) ∧
      (RasterHeaderOk (header eight one 1#8 0#8) ∧ RasterSizeOk (header eight one 1#8 0#8) ∧
        (header eight one 1#8 0#8).length < rasterEnd (header eight one 1#8 0#8)) := by decide +kernel

/-- Both row orders, with stored rows 0 and 1 and filler rows 2 to 7 in the one band. -/
theorem witness_DecodeRasterImageIsTheInvertedRaster :
    (RasterHeaderOk bottomUp ∧ RasterSizeOk bottomUp ∧
        rasterOffs bottomUp + ((rasterHeight bottomUp).natAbs - 1) * 4 + 1 ≤ bottomUp.length ∧
        0 < rasterHeight bottomUp) ∧
      (RasterHeaderOk topDown ∧ RasterSizeOk topDown ∧
        rasterOffs topDown + ((rasterHeight topDown).natAbs - 1) * 4 + 1 ≤ topDown.length ∧
        ¬0 < rasterHeight topDown) ∧
      (8 * 0 + 1 < (rasterHeight bottomUp).natAbs ∧ (rasterHeight bottomUp).natAbs ≤ 8 * 0 + 2) := by
  decide +kernel

/-- Two containers that differ in an ignored byte of the header, byte 2. -/
theorem witness_DecodeRasterIgnoresOtherHeaderBytes :
    let b' := bottomUp.set 2 0xAA#8
    b' ≠ bottomUp ∧ bytesGiven b' = { bytesGiven bottomUp with argBytes := (bytesGiven b').argBytes } ∧
      b'.length = bottomUp.length ∧
      ∀ k, (k < 2 ∨ (10 ≤ k ∧ k < 14) ∨ (18 ≤ k ∧ k < 26) ∨ (28 ≤ k ∧ k < 34) ∨
        rasterOffs bottomUp ≤ k) → b'[k]? = bottomUp[k]? := by
  refine ⟨by decide, rfl, rfl, fun k hk => ?_⟩
  have ho : rasterOffs bottomUp = 34 := by decide +kernel
  rw [ho] at hk
  exact List.getElem?_set_ne (by omega)

/-- One matrix for each clause of PACK_DM's errors, in their order: V-P4, V-P5, V-P3, V-P8, V-P6, V-P7,
V-P10, V-P2. -/
theorem witness_PackDmReportsItsFirstFailingCheck :
    (∃ a ∈ zeros 7 8 ++ zeros 1 16, ∃ b ∈ zeros 7 8 ++ zeros 1 16, a.length ≠ b.length) ∧
      (DmRect (zeros 8 12) 12 ∧ zeros 8 12 ≠ [] ∧ 12 % 8 ≠ 0) ∧
      (DmRect (zeros 7 8) 8 ∧ (zeros 7 8).length % 8 ≠ 0) ∧
      (DmRect (zeros 2048 8) 8 ∧ (zeros 2048 8).length % 8 = 0 ∧ 2040 < (zeros 2048 8).length) ∧
      (DmRect (zeros 8 0) 0 ∧ zeros 8 0 ≠ [] ∧ DmRect (zeros 8 392) 392 ∧ 384 < 392) ∧
      (DmRect (zeros 1544 64) 64 ∧ (zeros 1544 64).length ≤ 2040 ∧
        1536 < ((zeros 1544 64).length / 8) * (64 / 8)) ∧
      State.reset.argDm = [] := by
  refine ⟨⟨List.replicate 8 false, ?_, List.replicate 16 false, ?_, by decide⟩,
    ⟨zeros_rect _ _, by decide, by decide⟩, ⟨zeros_rect _ _, by decide⟩,
    ⟨zeros_rect _ _, ?_, ?_⟩, ⟨zeros_rect _ _, by decide, zeros_rect _ _, by decide⟩,
    ⟨zeros_rect _ _, (zeros_length _ _).trans_le (by decide), ?_⟩, rfl⟩
  · exact List.mem_append_left _ (List.mem_replicate.mpr ⟨by decide, rfl⟩)
  · exact List.mem_append_right _ (List.mem_replicate.mpr ⟨by decide, rfl⟩)
  all_goals rw [zeros_length] <;> decide

/-- The smallest matrix, the widest, and the largest area (V-P9, V-P11). -/
theorem witness_PackDmFoldsGroupsColumnByColumn :
    DmValid (zeros 8 8) 8 ∧ DmValid (zeros 2040 8) 8 ∧ DmValid (zeros 1536 64) 64 ∧
      DmValid (zeros 256 384) 384 := by
  refine ⟨⟨zeros_rect _ _, ?_⟩, ⟨zeros_rect _ _, ?_⟩, ⟨zeros_rect _ _, ?_⟩, ⟨zeros_rect _ _, ?_⟩⟩ <;>
    rw [zeros_length] <;> decide

theorem witness_MsbPackingRoundTrips :
    DmValid diagonal 8 ∧ (∃ t, exec (.packDm .msbFirst) (matrixGiven diagonal) = .next t) ∧
      diagonal[7]? = some [false, false, false, false, false, false, false, true] :=
  ⟨by decide, ⟨_, rfl⟩, by decide⟩

theorem witness_LsbPackingReversesEachGroup :
    DmValid diagonal 8 ∧ (∃ t, exec (.packDm .lsbFirst) (matrixGiven diagonal) = .next t) ∧
      diagonal[0]? = some [true, false, false, false, false, false, false, false] :=
  ⟨by decide, ⟨_, rfl⟩, by decide⟩

theorem witness_AccessorsNeedAnImage : State.reset.valid = false := rfl

/-- The three clauses: no image; row 16 is the first past the end; row 15 is the last. -/
theorem witness_DotRowReadsOneRow :
    (Memory.wf State.reset ∧ State.reset.valid = false) ∧ Memory.wf imageB8 ∧ imageB8.valid = true ∧
      8 * imageB8.ysize.toNat ≤ 16 ∧ 15 < 8 * imageB8.ysize.toNat ∧ 7 < 8 * imageB8.xsize.toNat := by
  decide

/-- The three clauses: no image; column 8 is the first past the end; column 7 is the last. -/
theorem witness_DotColReadsOneColumn :
    (Memory.wf State.reset ∧ State.reset.valid = false) ∧ Memory.wf imageB8 ∧ imageB8.valid = true ∧
      8 * imageB8.xsize.toNat ≤ 8 ∧ 7 < 8 * imageB8.xsize.toNat ∧ 15 < 8 * imageB8.ysize.toNat := by
  decide

theorem witness_DotMatrixReadsAllColumnsAndRebuilds :
    (Memory.wf State.reset ∧ State.reset.valid = false) ∧ Memory.wf imageB8 ∧ imageB8.valid = true ∧
      ∃ t : State, t.argDm = matrixColumns imageB8 :=
  ⟨by decide, by decide, rfl, matrixGiven (matrixColumns imageB8), rfl⟩

theorem witness_AccessorsAgreeOnEveryPixel :
    imageB8.valid = true ∧ 15 < 8 * imageB8.ysize.toNat ∧ 7 < 8 * imageB8.xsize.toNat := by decide

theorem witness_AccessorsDependOnTheImageAlone :
    constructs .exportDef = false ∧ KeepsImage imageB8 { imageB8 with argX := 5#16 } := by decide

theorem witness_ExportDefReturnsTheDefinitionBytes :
    State.reset.valid = false ∧ imageB8.valid = true ∧ Memory.wf imageB8 := by decide

theorem witness_ConstructionsFailOnResetOperands :
    imageB8.argX = 0x0000#16 ∧ imageB8.argY = 0x0000#16 ∧ imageB8.argBytes = [] ∧ imageB8.argDm = [] := by
  decide

/-- Actions after the last command, and a sequence of no command. -/
theorem witness_RunEndsWithItsLastCommand :
    (∀ a ∈ [HostAction.writeArgX 2#16, .read (.imgByte 0), .reset], a.isCommand = false) ∧
      ∀ a ∈ ([] : List HostAction), a.isCommand = false := by decide

/-- A first action followed by a command, and by a read that is refused. -/
theorem witness_ObservationGrowsByOneAction :
    ∃ o, observeFrom [.writeArgX 2#16] State.reset = some o ∧
      (∃ t, step { o.final with inbox := [.command 0x00000012#32] } = .next t) ∧
      ∃ r, step { o.final with inbox := [.read (.imgByte 0)] } = .refused r :=
  ⟨_, rfl, ⟨_, rfl⟩, _, rfl⟩

/-- A run that is observed, and one that is refused. -/
theorem witness_RunIsTheMachinesSteps :
    (∃ o, observeRun [.command 0x00000012#32] = some o) ∧
      observeRun [.read (.imgByte 0), .command 0x00000012#32] = none := ⟨⟨_, rfl⟩, rfl⟩

end Sys2Proof.Tests
end

section
/-! The image's limits under R24 (00_scope.md R8, R9), and the base-256 digits of MemRead (R15, R51). -/

namespace Sys2Proof.Machine

/-- Held or not, the image's sizes are bounded and IMG is as long as they say: with no image all are 0 (R24). -/
theorem sizes_le_of_wf {s : State} (h : Memory.wf s) :
    s.xsize.toNat ≤ 255 ∧ s.ysize.toNat ≤ 48 ∧ s.xsize.toNat * s.ysize.toNat ≤ 1536 ∧
      s.img.length = 8 * (s.xsize.toNat * s.ysize.toNat) := by
  obtain ⟨held, empty⟩ := h
  cases hv : s.valid with
  | true =>
    obtain ⟨-, hx, -, hy, harea, hlen⟩ := held hv
    exact ⟨hx, hy, harea, by rw [hlen, Nat.mul_assoc]⟩
  | false =>
    obtain ⟨hx, hy, himg⟩ := empty hv
    simp [hx, hy, himg]

/-- Settles O28: 12288, 2040 and 384 are 8 times the limits of the area, of XSIZE and of YSIZE. -/
theorem imageIsWithinItsLimits : Obligations.ImageIsWithinItsLimits := by
  intro s h
  obtain ⟨hx, hy, harea, hlen⟩ := sizes_le_of_wf h
  exact ⟨hlen.trans_le (Nat.mul_le_mul_left 8 harea), Nat.mul_le_mul_left 8 hx,
    Nat.mul_le_mul_left 8 hy⟩

theorem memRead_succ_mod (b : List Byte) (a n : Nat) :
    memRead b a (n + 1) % 256 = (byteAt b a).toNat := by
  have hb : (byteAt b a).toNat < 256 := (byteAt b a).isLt
  rw [memRead_succ]
  omega

theorem memRead_succ_div (b : List Byte) (a n : Nat) :
    memRead b a (n + 1) / 256 = memRead b (a + 1) n := by
  have hb : (byteAt b a).toNat < 256 := (byteAt b a).isLt
  rw [memRead_succ]
  omega

theorem memRead_lt (b : List Byte) (a n : Nat) : memRead b a n < 256 ^ n := by
  induction n generalizing a with
  | zero => simp
  | succ n ih =>
    have hb : (byteAt b a).toNat < 256 := (byteAt b a).isLt
    have hrest : memRead b (a + 1) n < 256 ^ n := ih (a + 1)
    rw [memRead_succ, Nat.pow_succ]
    omega

/-- Dropping the k low digits is reading k bytes further on. -/
theorem memRead_add_div_pow (b : List Byte) (a n k : Nat) :
    memRead b a (n + k) / 256 ^ k = memRead b (a + k) n := by
  induction k generalizing a with
  | zero => simp
  | succ k ih =>
    calc memRead b a (n + k + 1) / 256 ^ (k + 1)
        = memRead b a (n + k + 1) / 256 / 256 ^ k := by rw [Nat.pow_succ', Nat.div_div_eq_div_mul]
      _ = memRead b (a + 1) (n + k) / 256 ^ k := by rw [memRead_succ_div]
      _ = memRead b (a + (k + 1)) n := by rw [ih, Nat.add_right_comm, Nat.add_assoc]

theorem memRead_digit (b : List Byte) (a : Nat) {n k : Nat} (hk : k < n) :
    memRead b a n / 256 ^ k % 256 = (byteAt b (a + k)).toNat := by
  obtain ⟨m, rfl⟩ : ∃ m, n = m + 1 + k := ⟨n - k - 1, by omega⟩
  rw [memRead_add_div_pow, memRead_succ_mod]

/-- Settles O33: the bound by induction on the bytes read, the digit by dropping those below it. -/
theorem memReadIsLittleEndian : Obligations.MemReadIsLittleEndian := by
  intro b addr n hn
  exact ⟨memRead_lt b addr n, fun k hk =>
    ⟨byteAt b (addr + k), byteAt_of_lt (by omega), memRead_digit b addr hk⟩⟩

end Sys2Proof.Machine
end

section
/-! The fields of STATUS (10_state.md R32; 60_exceptions.md R226). -/

namespace Sys2Proof.Machine

/-- DETAIL and KIND do not overlap, so STATUS is their sum. -/
theorem statusOf_toNat (e : Err) : (statusOf e).toNat = e.detail.toNat * 256 + e.kind.code.toNat := by
  have hd : e.detail.toNat < 256 := e.detail.isLt
  have hk : e.kind.code.toNat < 16 := e.kind.code.isLt
  have hor := Nat.shiftLeft_add_eq_or_of_lt (show e.kind.code.toNat < 2 ^ 8 by omega) e.detail.toNat
  simp only [statusOf, BitVec.toNat_or, BitVec.toNat_shiftLeft, BitVec.toNat_setWidth]
  rw [Nat.mod_eq_of_lt (show e.detail.toNat < 2 ^ 16 by omega),
    Nat.mod_eq_of_lt (show e.kind.code.toNat < 2 ^ 16 by omega),
    Nat.mod_eq_of_lt (by rw [Nat.shiftLeft_eq]; omega), ← hor, Nat.shiftLeft_eq]

@[simp] theorem kindField_statusOf (e : Err) : kindField (statusOf e) = e.kind.code := by
  have hk : e.kind.code.toNat < 16 := e.kind.code.isLt
  apply BitVec.eq_of_toNat_eq
  rw [kindField, BitVec.extractLsb'_toNat, statusOf_toNat, Nat.shiftRight_eq_div_pow]
  omega

@[simp] theorem reservedField_statusOf (e : Err) : reservedField (statusOf e) = 0#4 := by
  have hk : e.kind.code.toNat < 16 := e.kind.code.isLt
  apply BitVec.eq_of_toNat_eq
  rw [reservedField, BitVec.extractLsb'_toNat, statusOf_toNat, Nat.shiftRight_eq_div_pow,
    BitVec.toNat_ofNat]
  omega

@[simp] theorem detailField_statusOf (e : Err) : detailField (statusOf e) = e.detail := by
  have hd : e.detail.toNat < 256 := e.detail.isLt
  have hk : e.kind.code.toNat < 16 := e.kind.code.isLt
  apply BitVec.eq_of_toNat_eq
  rw [detailField, BitVec.extractLsb'_toNat, statusOf_toNat, Nat.shiftRight_eq_div_pow]
  omega

/-- No kind is numbered 0, so the STATUS of an error is not that of success (R220, R226). -/
theorem statusOf_ne_statusOk (e : Err) : statusOf e ≠ statusOk := by
  intro h
  have hcode : e.kind.code = 0#4 := by rw [← kindField_statusOf, h]; rfl
  revert hcode
  cases e.kind <;> decide

/-- Settles O24: each field is read off the sum that STATUS is. -/
theorem statusHoldsKindAndDetail : Obligations.StatusHoldsKindAndDetail :=
  ⟨fun e => ⟨kindField_statusOf e, reservedField_statusOf e, detailField_statusOf e, statusOf_toNat e⟩,
    rfl, rfl, rfl, rfl, rfl⟩

end Sys2Proof.Machine
end

section
/-! What each command can answer: its sized image, its kind of result, or one of its own errors
(10_state.md R33; 60_exceptions.md R221 to R225, R230, R231). -/

namespace Sys2Proof.Machine

/-- The errors of the dimension check (R221). -/
def dimensionErrors : List Err := [dimensionError 1#8, dimensionError 2#8, dimensionError 3#8]

/-- The errors a command can report (R221 to R225). -/
def reportable : Instr → List Err
  | .newZero => dimensionErrors
  | .newRaw => dimensionErrors ++ [formatError 6#8]
  | .decodeRaster => dimensionErrors ++
      [formatError 1#8, formatError 2#8, formatError 3#8, formatError 4#8, formatError 5#8]
  | .packDm _ => dimensionErrors ++ [formatError 7#8, formatError 8#8, formatError 9#8]
  | .dotRow _ => [noImage 1#8, indexError 1#8]
  | .dotCol _ => [noImage 1#8, indexError 2#8]
  | .dotMatrix | .exportDef => [noImage 1#8]

/-- The tag of the result a command leaves when it completes (R33). -/
def LeavesResult : Instr → Result → Prop
  | .newZero, r | .newRaw, r | .decodeRaster, r | .packDm _, r => r = .none
  | .dotRow _, r | .dotCol _, r => ∃ b, r = .bits b
  | .dotMatrix, r => ∃ m, r = .columns m
  | .exportDef, r => ∃ b, r = .bytes b

/-- The states command `i` can answer from `s`; `exec_answers` ties it to `exec`. -/
inductive Answers (i : Instr) (s : State) : State → Prop where
  | committed (im : Image) (hi : constructs i = true) (him : im.Sized) : Answers i s (s.committed im)
  | completed (r : Result) (hr : LeavesResult i r) : Answers i s (s.completed r)
  | failed (e : Err) (he : e ∈ reportable i) : Answers i s (s.failed e)

theorem checkDims_mem {x y : Nat} {e : Err} (h : checkDims x y = some e) : e ∈ dimensionErrors := by
  simpa [dimensionErrors] using checkDims_some h

theorem zeroImage_error {x y : Nat} {e : Err} (h : zeroImage x y = .error e) :
    e ∈ reportable .newZero :=
  checkDims_mem (validated_error h)

theorem rawImage_error {x y : Nat} {b : List Byte} {e : Err} (h : rawImage x y b = .error e) :
    e ∈ reportable .newRaw := by
  rcases Option.or_eq_some_iff.mp (validated_error h) with hd | ⟨-, hl⟩
  · exact List.mem_append_left _ (checkDims_mem hd)
  · unfold rawLengthError at hl
    split_ifs at hl
    cases hl
    decide

theorem rasterHeaderError_mem {b : List Byte} {e : Err} (h : rasterHeaderError b = some e) :
    e ∈ reportable .decodeRaster := by
  unfold rasterHeaderError at h
  split_ifs at h <;> cases h <;> decide

theorem rasterImage_error {b : List Byte} {e : Err} (h : rasterImage b = .error e) :
    e ∈ reportable .decodeRaster := by
  rcases Option.or_eq_some_iff.mp (validated_error h) with hh | ⟨-, h⟩
  · exact rasterHeaderError_mem hh
  rcases Option.or_eq_some_iff.mp h with hw | ⟨-, h⟩
  · unfold rasterWidthError at hw
    split_ifs at hw
    cases hw
    decide
  rcases Option.or_eq_some_iff.mp h with hd | ⟨-, hb⟩
  · exact List.mem_append_left _ (checkDims_mem hd)
  · unfold rasterBoundError at hb
    split_ifs at hb
    cases hb
    decide

theorem dmImage_error {m : BitOrder} {d : List (List Bool)} {e : Err}
    (h : dmImage m d = .error e) : e ∈ reportable (.packDm m) := by
  rcases Option.or_eq_some_iff.mp (validated_error h) with hs | ⟨-, hd⟩
  · unfold dmStructure at hs
    split_ifs at hs <;> cases hs <;> simp [reportable, dimensionErrors]
  · exact List.mem_append_left _ (checkDims_mem hd)

theorem construct_answers {i : Instr} {r : Except Err Image} {s t : State}
    (hi : constructs i = true) (hok : ∀ im, r = .ok im → im.Sized)
    (herr : ∀ e, r = .error e → e ∈ reportable i) (h : construct r s = .next t) : Answers i s t := by
  rcases construct_next h with ⟨im, him, rfl⟩ | ⟨e, he, rfl⟩
  · exact .committed im hi (hok im him)
  · exact .failed e (herr e he)

/-- What an accessor computed is its kind of result or one of its own errors. -/
def AccessFits (i : Instr) : Except Err Result → Prop
  | .ok v => LeavesResult i v
  | .error e => e ∈ reportable i

theorem access_answers {i : Instr} {r : Except Err Result} {s t : State}
    (hno : noImage 1#8 ∈ reportable i) (hr : AccessFits i r) (h : access r s = .next t) :
    Answers i s t := by
  rcases access_next h with ⟨-, v, rfl, rfl⟩ | ⟨-, e, rfl, rfl⟩ | ⟨-, rfl⟩
  · exact .completed v hr
  · exact .failed e hr
  · exact .failed _ hno

theorem dotRowResult_fits (n : Nat) (s : State) : AccessFits (.dotRow n) (dotRowResult n s) := by
  unfold dotRowResult
  split
  · exact List.mem_cons_of_mem _ List.mem_cons_self
  · exact ⟨_, rfl⟩

theorem dotColResult_fits (n : Nat) (s : State) : AccessFits (.dotCol n) (dotColResult n s) := by
  unfold dotColResult
  split
  · exact List.mem_cons_of_mem _ List.mem_cons_self
  · exact ⟨_, rfl⟩

/-- Every command ends in one of its own answers (R230, R231). -/
theorem exec_answers {i : Instr} {s t : State} (h : exec i s = .next t) : Answers i s t := by
  cases i with
  | newZero =>
    exact construct_answers rfl (fun _ => zeroImage_sized) (fun _ => zeroImage_error) h
  | newRaw => exact construct_answers rfl (fun _ => rawImage_sized) (fun _ => rawImage_error) h
  | decodeRaster =>
    exact construct_answers rfl (fun _ => rasterImage_sized) (fun _ => rasterImage_error) h
  | packDm m => exact construct_answers rfl (fun _ => dmImage_sized) (fun _ => dmImage_error) h
  | dotRow n => exact access_answers List.mem_cons_self (dotRowResult_fits n s) h
  | dotCol n => exact access_answers List.mem_cons_self (dotColResult_fits n s) h
  | dotMatrix =>
    exact access_answers (r := .ok (.columns (matrixColumns s))) List.mem_cons_self ⟨_, rfl⟩ h
  | exportDef =>
    exact access_answers (r := .ok (.bytes (exportBytes s))) List.mem_cons_self ⟨_, rfl⟩ h

theorem leavesResult_none {i : Instr} (hi : constructs i = true) : LeavesResult i .none := by
  cases i
  case newZero | newRaw | decodeRaster | packDm => rfl
  all_goals cases hi

/-- Settles O22: an error's STATUS is never 0x0000, so STATUS says which of the command's answers it gave. -/
theorem resultDescribesTheLastCommand : Obligations.ResultDescribesTheLastCommand := by
  intro i s t h
  have hresult : (t.status ≠ statusOk → t.result = .none) ∧
      (t.status = statusOk → LeavesResult i t.result) := by
    cases exec_answers h with
    | committed im hi => exact ⟨fun _ => rfl, fun _ => leavesResult_none hi⟩
    | completed r hr => exact ⟨fun hne => absurd rfl hne, fun _ => hr⟩
    | failed e => exact ⟨fun _ => rfl, fun hok => absurd hok (statusOf_ne_statusOk e)⟩
  refine ⟨hresult.1, fun hok => ?_⟩
  have hleaves := hresult.2 hok
  cases i <;> exact hleaves

/-- Settles O19: none of a command's answers writes an operand or touches the host's lists. -/
theorem commandsKeepOperandRegisters : Obligations.CommandsKeepOperandRegisters := by
  intro i s t h
  cases exec_answers h <;> exact ⟨rfl, rfl, rfl, rfl, rfl, rfl⟩

end Sys2Proof.Machine
end

section
/-! The invariant of the unit at reset and over every step (10_state.md R24, R31 to R33, R38). -/

namespace Sys2Proof.Machine

theorem reportable_legal {i : Instr} : ∀ e ∈ reportable i, statusOf e ∈ legalStatus := by
  cases i <;> rw [reportable] <;> decide

theorem illegalCommand_legal (e : IllegalWord) : statusOf (illegalCommand e.detail) ∈ legalStatus := by
  cases e <;> decide

theorem Inv.failed {s : State} {e : Err} (h : Inv s) (he : statusOf e ∈ legalStatus) :
    Inv (s.failed e) :=
  ⟨failed_wf e h.image, he, fun _ => rfl, h.operands⟩

theorem Inv.completed {s : State} (h : Inv s) (r : Result) : Inv (s.completed r) :=
  ⟨completed_wf r h.image, List.mem_cons_self, fun hne => absurd rfl hne, h.operands⟩

theorem Inv.committed {s : State} {im : Image} (h : Inv s) (him : im.Sized) : Inv (s.committed im) :=
  ⟨committed_wf s him, List.mem_cons_self, fun _ => rfl, h.operands⟩

theorem exec_inv {i : Instr} {s t : State} (hs : Inv s) (h : exec i s = .next t) : Inv t := by
  cases exec_answers h with
  | committed im _ him => exact hs.committed him
  | completed r => exact hs.completed r
  | failed e he => exact hs.failed (reportable_legal e he)

/-- The invariant is about the unit's items alone, not about the host's lists. -/
theorem Inv.withHost {s : State} (h : Inv s) (inbox : List HostAction) (outbox : List HostValue) :
    Inv { s with inbox := inbox, outbox := outbox } :=
  ⟨h.image, h.status, h.result, h.operands⟩

/-- Settles O27: nothing is held, STATUS is success and the operands are empty. -/
theorem resetStateSatisfiesTheInvariant : Obligations.ResetStateSatisfiesTheInvariant :=
  { image := by decide
    status := List.mem_cons_self
    result := fun _ => rfl
    operands := ⟨Nat.zero_le _, Nat.zero_le _, nofun⟩ }

theorem performAction_inv {a : HostAction} {s t : State} (hs : Inv s)
    (h : performAction a s = .next t) : Inv t := by
  rcases performAction_next h with ⟨v, -, rfl⟩ | ⟨v, -, rfl⟩ | ⟨b, -, hb, rfl⟩ | ⟨m, -, hm, rfl⟩ |
    ⟨w, e, -, -, rfl⟩ | ⟨w, i, -, -, he⟩ | ⟨item, v, -, -, rfl⟩ | ⟨-, rfl⟩
  · exact ⟨hs.image, hs.status, hs.result, hs.operands⟩
  · exact ⟨hs.image, hs.status, hs.result, hs.operands⟩
  · exact ⟨hs.image, hs.status, hs.result, hb, hs.operands.2⟩
  · exact ⟨hs.image, hs.status, hs.result, hs.operands.1, hm⟩
  · exact hs.failed (illegalCommand_legal e)
  · exact exec_inv hs he
  · exact hs.withHost _ _
  · exact Inv.withHost resetStateSatisfiesTheInvariant _ _

/-- Settles O26: an idle step changes nothing, and every host action keeps the invariant. -/
theorem everyStepKeepsTheInvariant : Obligations.EveryStepKeepsTheInvariant := by
  intro s t hs h
  rcases step_next h with ⟨-, rfl⟩ | ⟨a, rest, -, ha⟩
  · exact hs
  · exact performAction_inv (hs.withHost rest s.outbox) ha

end Sys2Proof.Machine
end

section
/-! Reset, operand writes and state reads as steps (10_state.md R27, R31, R38, R39), and the registers no
command reads (R34). -/

namespace Sys2Proof.Machine

/-- Settles O1: the fields of the literal state. -/
theorem resetStateHoldsTheSpecValues : Obligations.ResetStateHoldsTheSpecValues :=
  ⟨rfl, rfl, rfl, rfl, rfl, rfl, rfl, rfl, rfl, rfl⟩

theorem step_of_inbox {s : State} {a : HostAction} {rest : List HostAction} (h : s.inbox = a :: rest) :
    step s = performAction a { s with inbox := rest } := by
  rw [step, takeAction, h]

theorem hostWriteArgBytes_within {b : List Byte} (h : b.length ≤ Config.argBytesCap) (s : State) :
    hostWriteArgBytes b s = .next { s with argBytes := b } :=
  if_pos h

theorem hostWriteArgBytes_beyond {b : List Byte} (h : Config.argBytesCap < b.length) (s : State) :
    hostWriteArgBytes b s = .refused (.argBytesOverCapacity b.length) :=
  if_neg (Nat.not_le.mpr h)

theorem hostWriteArgDm_within {m : List (List Bool)} (h : dmFits m) (s : State) :
    hostWriteArgDm m s = .next { s with argDm := m } :=
  if_pos h

theorem hostWriteArgDm_beyond {m : List (List Bool)} (h : ¬dmFits m) (s : State) :
    hostWriteArgDm m s = .refused (.argDmOverCapacity m.length) :=
  if_neg h

/-- Settles O3: each write within its capacity and beyond it. -/
theorem hostWriteSetsOneOperandWithinCapacity : Obligations.HostWriteSetsOneOperandWithinCapacity := by
  refine ⟨fun s v rest h => step_of_inbox h, fun s v rest h => step_of_inbox h, ?_, ?_,
    dmMaxCols_ge, dmMaxLen_ge⟩
  · intro s b rest h
    rw [step_of_inbox h]
    exact ⟨fun hb => hostWriteArgBytes_within hb _, fun hb => hostWriteArgBytes_beyond hb _⟩
  · intro s m rest h
    rw [step_of_inbox h]
    refine ⟨fun hcols hlen => hostWriteArgDm_within ⟨hcols, hlen⟩ _, fun hcols => ?_, ?_⟩
    · exact hostWriteArgDm_beyond (fun hm => Nat.not_le.mpr hcols hm.1) _
    · rintro ⟨col, hcol, hlen⟩
      exact hostWriteArgDm_beyond (fun hm => Nat.not_le.mpr hlen (hm.2 col hcol)) _

theorem hostRead_of_value {item : HostItem} {v : HostValue} {s : State} (h : hostValue item s = .ok v) :
    hostRead item s = .next { s with outbox := s.outbox ++ [v] } := by
  rw [hostRead, h]

theorem hostRead_of_refusal {item : HostItem} {r : Refusal} {s : State}
    (h : hostValue item s = .error r) : hostRead item s = .refused r := by
  rw [hostRead, h]

theorem hostValue_imgByte {s : State} {i : Nat} {b : Byte} (h : s.img[i]? = some b) :
    hostValue (.imgByte i) s = .ok (.byte b) := by
  rw [hostValue, h]

theorem hostValue_imgByte_outside {s : State} {i : Nat} (h : s.img.length ≤ i) :
    hostValue (.imgByte i) s = .error (.imgReadOutside i) := by
  rw [hostValue, List.getElem?_eq_none h]

/-- Settles O4: the byte is there exactly for an index below the length. -/
theorem hostReadsImageOnlyBelowItsLength : Obligations.HostReadsImageOnlyBelowItsLength := by
  intro s i rest h
  rw [step_of_inbox h]
  exact ⟨fun b hb => hostRead_of_value (s := { s with inbox := rest }) (hostValue_imgByte hb),
    fun hi => hostRead_of_refusal (hostValue_imgByte_outside hi)⟩

/-- Settles O5: every listed pair is an item and its value, and reading a value only hands it back. -/
theorem hostReadsRegistersWithoutSideEffect : Obligations.HostReadsRegistersWithoutSideEffect := by
  intro s item v rest h hmem
  have hvalue : hostValue item { s with inbox := rest } = .ok v := by
    simp only [List.mem_cons, Prod.mk.injEq, List.not_mem_nil, or_false] at hmem
    rcases hmem with ⟨rfl, rfl⟩ | ⟨rfl, rfl⟩ | ⟨rfl, rfl⟩ | ⟨rfl, rfl⟩ | ⟨rfl, rfl⟩ | ⟨rfl, rfl⟩ |
      ⟨rfl, rfl⟩ | ⟨rfl, rfl⟩ | ⟨rfl, rfl⟩ <;> rfl
  rw [step_of_inbox h]
  exact hostRead_of_value hvalue

theorem construct_status_result (r : Except Err Image) (s : State) (v : Half) (q : Result) :
    construct r { s with status := v, result := q } = construct r s := by
  cases r <;> rfl

theorem access_status_result (r : Except Err Result) (s : State) (v : Half) (q : Result) :
    access r { s with status := v, result := q } = access r s := by
  cases r <;> rfl

/-- Settles O25: what a command computes reads neither, and its end overwrites both. -/
theorem commandsIgnoreStatusAndResult : Obligations.CommandsIgnoreStatusAndResult := by
  intro i s v q
  cases i
  case newZero | newRaw | decodeRaster | packDm => exact construct_status_result _ s v q
  case dotRow | dotCol => exact access_status_result _ s v q
  case dotMatrix => exact access_status_result (.ok (.columns (matrixColumns s))) s v q
  case exportDef => exact access_status_result (.ok (.bytes (exportBytes s))) s v q

end Sys2Proof.Machine
end

section
/-! Carrying a command word as bytes, low byte first (20_memory.md R54). -/

namespace Sys2Proof

/-- A byte of a word, put back where it was taken from, holds the word's own bits there and no others. -/
theorem getLsbD_extractByte_shiftLeft (w : Word) (o : Nat) {i : Nat} (hi : i < 32) :
    ((w.extractLsb' o 8).setWidth 32 <<< o).getLsbD i =
      (decide (o ≤ i ∧ i < o + 8) && w.getLsbD i) := by
  by_cases ho : o ≤ i
  · have hbit : i - o < 8 ↔ i < o + 8 := by omega
    have hidx : o + (i - o) = i := by omega
    simp [hi, ho, hbit, hidx, Nat.not_lt.mpr ho]
  · simp [ho, Nat.not_le.mp ho]

theorem bytesOfWord_map_toNat (w : Word) :
    (bytesOfWord w).map BitVec.toNat =
      [w.toNat % 256, w.toNat / 256 % 256, w.toNat / 65536 % 256, w.toNat / 16777216] := by
  have hw : w.toNat < 4294967296 := w.isLt
  have htop : w.toNat / 16777216 % 256 = w.toNat / 16777216 := by omega
  simp [bytesOfWord, BitVec.extractLsb'_toNat, Nat.shiftRight_eq_div_pow, htop]

/-- Each bit lies in exactly one of the four bytes, and comes back from that one. -/
theorem wordOfBytes_bytesOfWord (w : Word) : wordOfBytes (bytesOfWord w) = some w := by
  rw [bytesOfWord, wordOfBytes, ← BitVec.shiftLeft_zero ((w.extractLsb' 0 8).setWidth 32)]
  refine congrArg some (BitVec.eq_of_getLsbD_eq fun i hi => ?_)
  simp only [BitVec.getLsbD_or, getLsbD_extractByte_shiftLeft w _ hi, ← Bool.and_or_distrib_right,
    ← Bool.decide_or]
  rw [decide_eq_true (by omega), Bool.true_and]

/-- Settles O12: the bytes are the base-256 digits, and joining them gives every bit back. -/
theorem commandWordTravelsLowByteFirst : Obligations.CommandWordTravelsLowByteFirst :=
  fun w => ⟨bytesOfWord_map_toNat w, wordOfBytes_bytesOfWord w⟩

end Sys2Proof
end

section
/-! The header fields of a raster container (20_memory.md R55), and what the accessors write and read
(R60, R68). -/

namespace Sys2Proof.Machine

theorem memRead_two (b : List Byte) (o : Nat) :
    memRead b o 2 = (byteAt b o).toNat + 256 * (byteAt b (o + 1)).toNat := by
  rw [memRead_succ, memRead_succ, memRead_zero, Nat.mul_zero, Nat.add_zero]

theorem memRead_four (b : List Byte) (o : Nat) :
    memRead b o 4 = (byteAt b o).toNat + 256 * (byteAt b (o + 1)).toNat +
      65536 * (byteAt b (o + 2)).toNat + 16777216 * (byteAt b (o + 3)).toNat := by
  simp only [memRead_succ, memRead_zero, Nat.add_assoc, Nat.reduceAdd]
  omega

/-- Settles O34: each field is its MemRead written out; width and height are that value's sext_32. -/
theorem headerFieldsAreReadAtTheirOffsets : Obligations.HeaderFieldsAreReadAtTheirOffsets := by
  intro b _ at4
  have hread : ∀ o, memRead b o 4 = at4 o := memRead_four b
  have hlt : ∀ o, at4 o < 4294967296 := fun o => hread o ▸ memRead_lt b o 4
  have hwidth : rasterWidth b = sext32 (at4 18) := congrArg sext32 (hread 18)
  have hheight : rasterHeight b = sext32 (at4 22) := congrArg sext32 (hread 22)
  rw [hwidth, hheight]
  exact ⟨hread 10, hread 30, memRead_two b 28,
    sext32_of_lt, fun h => sext32_of_ge h (hlt 18), sext32_of_lt, fun h => sext32_of_ge h (hlt 22)⟩

/-- Settles O20: a reader answers a result or an error, never a committed image. -/
theorem accessorsWriteOnlyStatusAndResult : Obligations.AccessorsWriteOnlyStatusAndResult := by
  intro i s t hi h
  rcases exec_next h with ⟨hc, -⟩ | ⟨-, -, v, rfl⟩ | ⟨e, rfl⟩
  · exact absurd (hi.symm.trans hc) Bool.false_ne_true
  · rfl
  · rfl

/-- Two outcomes are next states with one STATUS and one RESULT. -/
def EndAlike (o o' : StepOutcome) : Prop :=
  ∃ t t', o = .next t ∧ o' = .next t' ∧ t.status = t'.status ∧ t.result = t'.result

theorem access_endAlike {s s' : State} {r r' : Except Err Result} (hv : s'.valid = s.valid)
    (hr : r' = r) : EndAlike (access r s) (access r' s') := by
  unfold access
  rw [hv, hr]
  cases s.valid with
  | false => exact ⟨_, _, rfl, rfl, rfl, rfl⟩
  | true =>
    cases r with
    | ok v => exact ⟨_, _, rfl, rfl, rfl, rfl⟩
    | error e => exact ⟨_, _, rfl, rfl, rfl, rfl⟩

section KeepsImage
variable {s s' : State} (h : KeepsImage s s')
include h

theorem px_of_keepsImage : px s' = px s := by
  obtain ⟨-, hy, -, himg⟩ := h
  funext r c
  rw [px, px, imgIndex, imgIndex, hy, himg]

theorem pixelWidth_of_keepsImage : pixelWidth s' = pixelWidth s := by
  obtain ⟨hx, -, -, -⟩ := h
  rw [pixelWidth, pixelWidth, hx]

theorem pixelHeight_of_keepsImage : pixelHeight s' = pixelHeight s := by
  obtain ⟨-, hy, -, -⟩ := h
  rw [pixelHeight, pixelHeight, hy]

theorem rowBits_of_keepsImage : rowBits s' = rowBits s := by
  funext r
  rw [rowBits, rowBits, px_of_keepsImage h, pixelWidth_of_keepsImage h]

theorem colBits_of_keepsImage : colBits s' = colBits s := by
  funext c
  rw [colBits, colBits, px_of_keepsImage h, pixelHeight_of_keepsImage h]

theorem matrixColumns_of_keepsImage : matrixColumns s' = matrixColumns s := by
  rw [matrixColumns, matrixColumns, colBits_of_keepsImage h, pixelWidth_of_keepsImage h]

theorem exportBytes_of_keepsImage : exportBytes s' = exportBytes s := by
  obtain ⟨hx, hy, -, himg⟩ := h
  rw [exportBytes, exportBytes, hx, hy, himg]

theorem dotRowResult_of_keepsImage (r : Nat) : dotRowResult r s' = dotRowResult r s := by
  rw [dotRowResult, dotRowResult, pixelHeight_of_keepsImage h, rowBits_of_keepsImage h]

theorem dotColResult_of_keepsImage (c : Nat) : dotColResult c s' = dotColResult c s := by
  rw [dotColResult, dotColResult, pixelWidth_of_keepsImage h, colBits_of_keepsImage h]

end KeepsImage

/-- Settles O47: both states compute one result and agree on VALID, so they end alike. -/
theorem accessorsDependOnTheImageAlone : Obligations.AccessorsDependOnTheImageAlone := by
  intro i s s' hi h
  have ⟨_, _, hv, _⟩ := h
  cases i
  case newZero | newRaw | decodeRaster | packDm => cases hi
  case dotRow r => exact access_endAlike hv (dotRowResult_of_keepsImage h r)
  case dotCol c => exact access_endAlike hv (dotColResult_of_keepsImage h c)
  case dotMatrix =>
    exact access_endAlike hv (congrArg (fun m => .ok (.columns m)) (matrixColumns_of_keepsImage h))
  case exportDef =>
    exact access_endAlike hv (congrArg (fun b => .ok (.bytes b)) (exportBytes_of_keepsImage h))

end Sys2Proof.Machine
end

section
/-! The decoder and the encoder (30_encoding.md R71 to R77): which words decode to which instruction. -/

namespace Sys2Proof

theorem opOfCode_code (o : Op) : opOfCode o.code = some o := by
  cases o <;> decide

theorem opOfCode_eq_none {c : Byte} (h : ∀ o : Op, c ≠ o.code) : opOfCode c = none :=
  List.find?_eq_none.mpr fun o _ ho => h o (eq_of_beq ho).symm

theorem code_of_opOfCode {c : Byte} {o : Op} (h : opOfCode c = some o) : c = o.code :=
  (eq_of_beq (List.find?_some h :)).symm

theorem Op.code_injective {o o' : Op} (h : o.code = o'.code) : o = o' :=
  Option.some.inj (by rw [← opOfCode_code o, h, opOfCode_code])

/-- The word `w` names operation `o` and passes the checks of R76. -/
structure Holds (o : Op) (w : Word) : Prop where
  op : opField w = o.code
  rsv : rsvField w = 0#7
  m : o.usesM = false → mField w = false
  idx : o.usesIdx = false → idxField w = 0#16

section
variable {w : Word} {o : Op}

theorem decode_of_unknown (h : ∀ o : Op, opField w ≠ o.code) : decode w = .error .unknownOp := by
  rw [decode, opOfCode_eq_none h]

/-- The checks that follow once OP is known (R77). -/
theorem decode_of_op (h : opField w = o.code) :
    decode w = if rsvField w ≠ 0#7 then .error .rsvSet
      else if mField w && !o.usesM then .error .mSet
      else if idxField w ≠ 0#16 ∧ o.usesIdx = false then .error .idxSet
      else .ok (o.instr (mField w) (idxValue w)) := by
  rw [decode, h, opOfCode_code]

theorem decode_of_holds (h : Holds o w) : decode w = .ok (o.instr (mField w) (idxValue w)) := by
  rw [decode_of_op h.op, if_neg (not_not_intro h.rsv), if_neg, if_neg]
  · exact fun hi => hi.1 (h.idx hi.2)
  · cases hu : o.usesM <;> simp [h.m, hu]

theorem holds_of_decode {i : Instr} (h : decode w = .ok i) :
    ∃ o, Holds o w ∧ o.instr (mField w) (idxValue w) = i := by
  cases ho : opOfCode (opField w) with
  | none => rw [decode, ho] at h; cases h
  | some o =>
    have hop := code_of_opOfCode ho
    rw [decode_of_op hop] at h
    split_ifs at h with hr hm hi
    exact ⟨o, ⟨hop, not_not.mp hr, fun hu => by simpa [hu] using hm, fun hu => by simpa [hu] using hi⟩,
      Except.ok.inj h⟩

end

theorem Op.op_instr (o : Op) (m : Bool) (n : Nat) : (o.instr m n).op = o := by
  cases o <;> rfl

/-- An instruction is its operation with its immediates (R78). -/
theorem Instr.instr_op (i : Instr) : i.op.instr i.mBit i.idx = i := by
  cases i
  case packDm m => cases m <;> rfl
  all_goals rfl

/-- Field M is 0 for every operation other than PACK_DM (R71). -/
theorem Instr.mBit_of_not_usesM {i : Instr} (h : i.op.usesM = false) : i.mBit = false := by
  cases i
  case packDm => cases h
  all_goals rfl

/-- Field IDX is 0 for every operation other than DOT_ROW and DOT_COL (R71). -/
theorem Instr.idx_of_not_usesIdx {i : Instr} (h : i.op.usesIdx = false) : i.idx = 0 := by
  cases i
  case dotRow | dotCol => cases h
  all_goals rfl

theorem Instr.idx_lt_of_wellFormed {i : Instr} (h : WellFormed i) : i.idx < 65536 := by
  cases i
  case dotRow | dotCol => exact of_decide_eq_true h
  all_goals exact Nat.zero_lt_succ _

theorem holds_encode (i : Instr) : Holds i.op (encode i) where
  op := opField_packWord _ _ _
  rsv := rsvField_packWord _ _ _
  m := fun h => (mField_packWord _ _ _).trans (Instr.mBit_of_not_usesM h)
  idx := fun h => by rw [encode, idxField_packWord, Instr.idx_of_not_usesIdx h]

theorem idxValue_encode {i : Instr} (h : WellFormed i) : idxValue (encode i) = i.idx := by
  rw [idxValue, encode, idxField_packWord]
  exact (BitVec.toNat_ofNat i.idx 16).trans (Nat.mod_eq_of_lt (Instr.idx_lt_of_wellFormed h))

/-- Settles O8: the encoded word holds the instruction's operation, and its fields are the immediates. -/
theorem decodeOfEncodeIsTheInstruction : Obligations.DecodeOfEncodeIsTheInstruction := by
  intro i h
  rw [decode_of_holds (holds_encode i), idxValue_encode h, encode, mField_packWord, Instr.instr_op]

/-- Every bit of a word lies in exactly one of its four fields (R71). -/
theorem getLsbD_of_fields (w : Word) {k : Nat} (hk : k < 32) :
    w.getLsbD k = if k < 8 then (opField w).getLsbD k else if k = 8 then mField w
      else if k < 16 then (rsvField w).getLsbD (k - 9) else (idxField w).getLsbD (k - 16) := by
  split_ifs with hop hm hrsv
  · simp [opField, hop]
  · rw [mField, hm]
  · simp [rsvField, show k - 9 < 7 by omega, show 9 + (k - 9) = k by omega]
  · simp [idxField, show k - 16 < 16 by omega, show 16 + (k - 16) = k by omega]

theorem packWord_fields {w : Word} (h : rsvField w = 0#7) :
    packWord (idxField w) (mField w) (opField w) = w := by
  refine BitVec.eq_of_getLsbD_eq fun k hk => ?_
  rw [packWord_getLsbD _ _ _ _ hk, getLsbD_of_fields w hk, h, BitVec.getLsbD_zero]

theorem Op.mBit_instr {o : Op} {m : Bool} (n : Nat) (h : o.usesM = false → m = false) :
    (o.instr m n).mBit = m := by
  cases o
  case packDm => cases m <;> rfl
  all_goals exact (h rfl).symm

theorem Op.idx_instr {o : Op} {n : Nat} (m : Bool) (h : o.usesIdx = false → n = 0) :
    (o.instr m n).idx = n := by
  cases o
  case dotRow | dotCol => rfl
  all_goals exact (h rfl).symm

theorem Op.wellFormed_instr (o : Op) (m : Bool) {n : Nat} (h : n < 65536) : WellFormed (o.instr m n) := by
  cases o
  case dotRow | dotCol => exact decide_eq_true h
  all_goals rfl

theorem Holds.encode_instr {o : Op} {w : Word} (h : Holds o w) :
    encode (o.instr (mField w) (idxValue w)) = w := by
  have hidx : o.usesIdx = false → idxValue w = 0 := fun hu => congrArg BitVec.toNat (h.idx hu)
  rw [encode, Op.op_instr, Op.mBit_instr _ h.m, Op.idx_instr _ hidx, ← h.op, idxValue,
    BitVec.ofNat_toNat, BitVec.setWidth_eq, packWord_fields h.rsv]

/-- Settles O9: the fields the decoder reads are all of the word, and IDX is 16 bits wide. -/
theorem encodeOfDecodeIsTheWord : Obligations.EncodeOfDecodeIsTheWord := by
  intro w i h
  obtain ⟨o, ho, rfl⟩ := holds_of_decode h
  exact ⟨ho.encode_instr, o.wellFormed_instr _ (idxField w).isLt⟩

/-- Settles O7: the decoder run on each of the eleven words. -/
theorem decodeReadsTheSpecWords : Obligations.DecodeReadsTheSpecWords := by
  unfold Obligations.DecodeReadsTheSpecWords
  decide

end Sys2Proof
end

section
/-! The match and mask table of R75. -/

namespace Sys2Proof

/-- The row's match: the opcode, every other bit zero (R75). -/
def Op.matchWord (o : Op) : Word := packWord 0#16 false o.code

/-- The row's mask: OP and RSV are fixed bits, M and IDX where the operation does not use them (R75). -/
def Op.maskWord (o : Op) : Word :=
  0x0000FEFF#32 ||| (if o.usesM then 0#32 else 0x00000100#32) |||
    (if o.usesIdx then 0#32 else 0xFFFF0000#32)

/-- The operation's row of the match and mask table (R75). -/
def Op.row (o : Op) : Op × Word × Word := (o, o.matchWord, o.maskWord)

theorem Op.mem_all (o : Op) : o ∈ Op.all := by
  cases o <;> decide

theorem eq_iff_fields {w v : Word} :
    w = v ↔ opField w = opField v ∧ rsvField w = rsvField v ∧ mField w = mField v ∧
      idxField w = idxField v := by
  refine ⟨fun h => h ▸ ⟨rfl, rfl, rfl, rfl⟩, fun ⟨hop, hrsv, hm, hidx⟩ => ?_⟩
  refine BitVec.eq_of_getLsbD_eq fun k hk => ?_
  rw [getLsbD_of_fields w hk, getLsbD_of_fields v hk, hop, hrsv, hm, hidx]

theorem Op.fields_maskWord (o : Op) :
    opField o.maskWord = BitVec.allOnes 8 ∧ rsvField o.maskWord = BitVec.allOnes 7 ∧
      mField o.maskWord = !o.usesM ∧
      idxField o.maskWord = if o.usesIdx then 0#16 else BitVec.allOnes 16 := by
  cases o <;> decide

theorem opField_and (w v : Word) : opField (w &&& v) = opField w &&& opField v :=
  BitVec.extractLsb'_and

theorem rsvField_and (w v : Word) : rsvField (w &&& v) = rsvField w &&& rsvField v :=
  BitVec.extractLsb'_and

theorem idxField_and (w v : Word) : idxField (w &&& v) = idxField w &&& idxField v :=
  BitVec.extractLsb'_and

theorem mField_and (w v : Word) : mField (w &&& v) = (mField w && mField v) :=
  BitVec.getLsbD_and

/-- Field by field, the row fixes what the checks of R76 require. -/
theorem holds_iff_and_maskWord {o : Op} {w : Word} : Holds o w ↔ w &&& o.maskWord = o.matchWord := by
  obtain ⟨hop, hrsv, hm, hidx⟩ := o.fields_maskWord
  rw [eq_iff_fields, opField_and, rsvField_and, mField_and, idxField_and, hop, hrsv, hm, hidx,
    Op.matchWord, opField_packWord, rsvField_packWord, mField_packWord, idxField_packWord,
    BitVec.and_allOnes, BitVec.and_allOnes]
  have hm' : (mField w && !o.usesM) = false ↔ (o.usesM = false → mField w = false) := by
    cases o.usesM <;> simp
  have hidx' : (idxField w &&& if o.usesIdx then 0#16 else BitVec.allOnes 16) = 0#16 ↔
      (o.usesIdx = false → idxField w = 0#16) := by
    cases o.usesIdx <;> simp [-BitVec.reduceAllOnes]
  rw [hm', hidx']
  exact ⟨fun h => ⟨h.op, h.rsv, h.m, h.idx⟩, fun ⟨op, rsv, m, idx⟩ => ⟨op, rsv, m, idx⟩⟩

theorem decodes_to_op_iff {o : Op} {w : Word} : (∃ i, decode w = .ok i ∧ i.op = o) ↔ Holds o w := by
  constructor
  · rintro ⟨i, hi, rfl⟩
    obtain ⟨o, ho, rfl⟩ := holds_of_decode hi
    rwa [Op.op_instr]
  · exact fun h => ⟨_, decode_of_holds h, o.op_instr _ _⟩

theorem idxValue_eq_div (w : Word) : idxValue w = w.toNat / 65536 := by
  have hw : w.toNat < 4294967296 := w.isLt
  rw [idxValue, idxField, BitVec.extractLsb'_toNat, Nat.shiftRight_eq_div_pow]
  omega

/-- The immediates of a decoded instruction are the word's fields (R72, R73). -/
theorem fields_of_decode {w : Word} {i : Instr} (h : decode w = .ok i) :
    i.mBit = mField w ∧ i.idx = idxValue w := by
  rw [← (encodeOfDecodeIsTheWord w i h).1]
  exact ⟨(mField_packWord _ _ _).symm, (idxValue_encode (encodeOfDecodeIsTheWord w i h).2).symm⟩

/-- Settles O10: the listed rows are those of the eight operations, and a word holds the operation whose
row it matches. -/
theorem decodeFollowsMatchAndMask : Obligations.DecodeFollowsMatchAndMask := by
  unfold Obligations.DecodeFollowsMatchAndMask
  intro rows
  have hrows : rows = Op.all.map Op.row := rfl
  have hrow : ∀ row ∈ rows, ∃ o : Op, o.row = row := fun row h => by
    rw [hrows] at h
    obtain ⟨o, -, ho⟩ := List.mem_map.mp h
    exact ⟨o, ho⟩
  refine ⟨fun w row h => ?_, fun w m h => ?_, fun w n h => ?_, fun w a ha b hb hwa hwb => ?_⟩
  · obtain ⟨o, rfl⟩ := hrow row h
    exact decodes_to_op_iff.trans holds_iff_and_maskWord
  · have hm : mOfOrder m = w.getLsbD 8 := (fields_of_decode h).1
    rw [← hm]
    cases m <;> decide
  · rw [← idxValue_eq_div]
    rcases h with h | h
    · exact (fields_of_decode h).2
    · exact (fields_of_decode h).2
  · obtain ⟨o, rfl⟩ := hrow a ha
    obtain ⟨o', rfl⟩ := hrow b hb
    have ho : Holds o w := holds_iff_and_maskWord.mpr hwa
    have ho' : Holds o' w := holds_iff_and_maskWord.mpr hwb
    rw [Op.code_injective (ho.op.symm.trans ho'.op)]

end Sys2Proof
end

section
/-! What the step does with each command word (30_encoding.md R76, R77, R230). -/

namespace Sys2Proof.Machine

theorem performAction_command_ok {w : Word} {i : Instr} (h : decode w = .ok i) (s : State) :
    performAction (.command w) s = exec i s := by
  rw [performAction, runWord, h]

theorem performAction_command_error {w : Word} {e : IllegalWord} (h : decode w = .error e) (s : State) :
    performAction (.command w) s = endsInError s (statusOf (illegalCommand e.detail)) := by
  rw [performAction, runWord, h]
  rfl

theorem opField_toNat (w : Word) : (opField w).toNat = w.toNat % 256 := by
  rw [opField, BitVec.extractLsb'_toNat, Nat.shiftRight_zero]

theorem rsvField_toNat (w : Word) : (rsvField w).toNat = w.toNat / 512 % 128 := by
  rw [rsvField, BitVec.extractLsb'_toNat, Nat.shiftRight_eq_div_pow]

theorem mField_toNat (w : Word) : (mField w).toNat = w.toNat / 256 % 2 := by
  rw [mField, BitVec.getLsbD, Nat.testBit_eq_decide_div_mod_eq]
  rcases Nat.mod_two_eq_zero_or_one (w.toNat / 256) with h | h <;> simp [h]

theorem usesM_iff_code {o : Op} : o.usesM = true ↔ o.code.toNat = 0x04 := by
  cases o <;> decide

theorem usesIdx_iff_code {o : Op} : o.usesIdx = true ↔ o.code.toNat ∈ [0x10, 0x11] := by
  cases o <;> decide

/-- The numbers listed for OP are the opcodes of the operations (R74). -/
theorem opField_known_iff {w : Word} :
    w.toNat % 256 ∈ [0x01, 0x02, 0x03, 0x04, 0x10, 0x11, 0x12, 0x20] ↔
      ∃ o : Op, opField w = o.code := by
  have hcodes : [0x01, 0x02, 0x03, 0x04, 0x10, 0x11, 0x12, 0x20] = Op.all.map fun o => o.code.toNat := rfl
  rw [hcodes, ← opField_toNat, List.mem_map]
  exact ⟨fun ⟨o, _, ho⟩ => ⟨o, BitVec.eq_of_toNat_eq ho.symm⟩,
    fun ⟨o, ho⟩ => ⟨o, o.mem_all, congrArg BitVec.toNat ho.symm⟩⟩

section
variable {w : Word} {o : Op}

theorem decode_rsvSet (hop : opField w = o.code) (hrsv : rsvField w ≠ 0#7) : decode w = .error .rsvSet := by
  rw [decode_of_op hop, if_pos hrsv]

theorem decode_mSet (hop : opField w = o.code) (hrsv : rsvField w = 0#7) (hm : mField w = true)
    (hu : o.usesM = false) : decode w = .error .mSet := by
  rw [decode_of_op hop, if_neg (not_not_intro hrsv), hm, hu]
  rfl

theorem decode_idxSet (hop : opField w = o.code) (hrsv : rsvField w = 0#7)
    (hm : mField w = false ∨ o.usesM = true) (hidx : idxField w ≠ 0#16) (hu : o.usesIdx = false) :
    decode w = .error .idxSet := by
  rw [decode_of_op hop, if_neg (not_not_intro hrsv), if_neg, if_pos ⟨hidx, hu⟩]
  rcases hm with hm | hm <;> simp [hm]

theorem decode_of_fields (hop : opField w = o.code) (hrsv : rsvField w = 0#7)
    (hm : mField w = false ∨ o.usesM = true) (hidx : idxField w = 0#16 ∨ o.usesIdx = true) :
    decode w = .ok (o.instr (mField w) (idxValue w)) :=
  decode_of_holds ⟨hop, hrsv, fun hu => hm.resolve_right (by simp [hu]),
    fun hu => hidx.resolve_right (by simp [hu])⟩

end

/-- Settles O11: the fields as numbers are the fields the decoder reads, so each clause is one way the
decoder answers, and the step raises that error or runs that instruction. -/
theorem illegalWordReportsItsFirstFailingCheck : Obligations.IllegalWordReportsItsFirstFailingCheck := by
  intro s w rest hs op m rsv idx known s'
  have hknown : known ↔ ∃ o : Op, opField w = o.code := opField_known_iff
  have hrsv : rsv = 0 ↔ rsvField w = 0#7 := by
    rw [← BitVec.toNat_inj, rsvField_toNat, BitVec.toNat_ofNat, Nat.zero_mod]
  have hm : m = 0 ↔ mField w = false := by
    rw [← Bool.toNat_eq_zero, mField_toNat]
  have hidx : idx = 0 ↔ idxField w = 0#16 := by
    rw [← BitVec.toNat_inj, ← idxValue, idxValue_eq_div, BitVec.toNat_ofNat, Nat.zero_mod]
  have hop : ∀ {o : Op}, opField w = o.code → op = o.code.toNat := fun h => by
    rw [← h, opField_toNat]
  rw [step_of_inbox hs, hknown]
  refine ⟨fun hunknown => ?_, fun ⟨o, ho⟩ rsvSet => ?_, fun ⟨o, ho⟩ rsvZero mSet notPack => ?_,
    fun ⟨o, ho⟩ rsvZero mOk idxSet notIndexed => ?_, fun ⟨o, ho⟩ rsvZero mOk idxOk => ?_⟩
  · exact performAction_command_error (decode_of_unknown (not_exists.mp hunknown)) s'
  · exact performAction_command_error (decode_rsvSet ho (hrsv.not.mp rsvSet)) s'
  · rw [hop ho, ne_eq, ← usesM_iff_code, Bool.not_eq_true] at notPack
    rw [ne_eq, hm, Bool.not_eq_false] at mSet
    exact performAction_command_error (decode_mSet ho (hrsv.mp rsvZero) mSet notPack) s'
  · rw [hop ho, ← usesIdx_iff_code, Bool.not_eq_true] at notIndexed
    rw [hop ho, hm, ← usesM_iff_code] at mOk
    exact performAction_command_error
      (decode_idxSet ho (hrsv.mp rsvZero) mOk (hidx.not.mp idxSet) notIndexed) s'
  · rw [hop ho, hm, ← usesM_iff_code] at mOk
    rw [hop ho, hidx, ← usesIdx_iff_code] at idxOk
    have hi := decode_of_fields ho (hrsv.mp rsvZero) mOk idxOk
    exact ⟨_, hi, by rw [Op.op_instr, hop ho], performAction_command_ok hi s'⟩

theorem decodeTableWord_eq_some {w : Nat} {i : Instr} (h : decodeTableWord 32 w = some i) :
    decode (BitVec.ofNat 32 (w % 2 ^ 32)) = .ok i := by
  rw [decodeTableWord, if_pos le_rfl, decodeBytes, wordOfBytes_bytesOfWord, Option.bind_some] at h
  cases hd : decode (BitVec.ofNat 32 (w % 2 ^ 32)) with
  | error e => rw [hd] at h; cases h
  | ok j => rw [hd] at h; exact congrArg _ (Option.some.inj h)

/-- Settles O14: the placed word stands first in the inbox, and taking it leaves the state itself. -/
theorem fetchWordRunsOnTheNextStep : Obligations.FetchWordRunsOnTheNextStep := by
  intro s w i h
  rw [step_of_inbox (s.withFetchWord_inbox 32 w), performAction_command_ok (decodeTableWord_eq_some h)]
  rfl

end Sys2Proof.Machine
end

section
/-! Lines of the assembler (30_encoding.md R79, R80). -/

namespace Sys2Proof.Machine

/-- The number that the decimal digits `ds` continue from `acc`, as R79 reads an index. -/
def decimalFrom (acc : Nat) (ds : List Char) : Nat := ds.foldl (fun a c => 10 * a + (c.toNat - 48)) acc

theorem digitsFrom_decimal {ds : List Char} (h : ∀ c ∈ ds, '0' ≤ c ∧ c ≤ '9') (acc : Nat) :
    digitsFrom 10 acc ds = some (decimalFrom acc ds) := by
  induction ds generalizing acc with
  | nil => rfl
  | cons c cs ih =>
    obtain ⟨hc, hcs⟩ := List.forall_mem_cons.mp h
    obtain ⟨-, hv, hlt⟩ := decimal_digit hc
    rw [digitsFrom_cons hv hlt, ih hcs, decimalFrom, decimalFrom, List.foldl_cons,
      Nat.mul_comm acc 10]

/-- A number of decimal digits is read in base 10: its second character is no `x`. -/
theorem numeral_decimal {ds : List Char} (hne : ds ≠ []) (h : ∀ c ∈ ds, '0' ≤ c ∧ c ≤ '9') :
    numeral ds = some (decimalFrom 0 ds) := by
  unfold numeral
  split
  · exact absurd (h 'x' (by simp)) (by decide)
  · obtain ⟨c, cs, rfl⟩ := List.exists_cons_of_ne_nil hne
    exact digitsFrom_decimal h 0

theorem numeralBelow_of_lt {bound n : Nat} {cs : List Char} (h : numeral cs = some n) (hn : n < bound) :
    numeralBelow bound cs = some n := by
  rw [numeralBelow, h]
  exact if_pos hn

/-- Two words with a space between them. -/
theorem tokens_two_words {v w : List Char} (hv : v ≠ []) (hw : w ≠ [])
    (hvc : ∀ c ∈ v, wordChar c = true) (hwc : ∀ c ∈ w, wordChar c = true) :
    tokens (v ++ ' ' :: w) [] = some [.word v, .word w] := by
  have hlast : tokens w [] = some [.word w] := by
    have h := tokens_word hwc [] []
    rwa [List.append_nil, List.append_nil, tokens_nil, endWord_reverse hw] at h
  rw [tokens_word hvc, tokens_space, List.append_nil, endWord_reverse hv, hlast]
  rfl

theorem assembleLine_two_words {line v w : List Char} (h : tokens line [] = some [.word v, .word w]) :
    assembleLine line =
      ((numeralBelow 65536 w).bind (indexedMnemonic v)).map (fun i => .command (encode i)) := by
  rw [assembleLine, h]
  rfl

theorem assembleLine_indexed {v ds : List Char} {i : Instr} (hv : v ≠ [])
    (hvc : ∀ c ∈ v, wordChar c = true) (hne : ds ≠ []) (hds : ∀ c ∈ ds, '0' ≤ c ∧ c ≤ '9')
    (hlt : decimalFrom 0 ds < 65536) (hi : indexedMnemonic v (decimalFrom 0 ds) = some i) :
    assembleLine (v ++ ' ' :: ds) = some (.command (encode i)) := by
  have hdsc : ∀ c ∈ ds, wordChar c = true := fun c hc => (decimal_digit (hds c hc)).1
  have hnum := numeralBelow_of_lt (numeral_decimal hne hds) hlt
  rw [assembleLine_two_words (tokens_two_words hv hne hvc hdsc), hnum, Option.bind_some, hi,
    Option.map_some]

/-- Settles O16: the line is the mnemonic and the number, and the number is the value of its digits. -/
theorem assemblerPlacesTheDecimalIndex : Obligations.AssemblerPlacesTheDecimalIndex := by
  intro ds hne hds n hn
  have hrow : "DOT_ROW ".toList ++ ds = "DOT_ROW".toList ++ ' ' :: ds := by simp
  have hcol : "DOT_COL ".toList ++ ds = "DOT_COL".toList ++ ' ' :: ds := by simp
  have hrowc : ∀ c ∈ "DOT_ROW".toList, wordChar c = true :=
    List.all_eq_true.mp (by decide)
  have hcolc : ∀ c ∈ "DOT_COL".toList, wordChar c = true :=
    List.all_eq_true.mp (by decide)
  rw [hrow, hcol]
  constructor
  · exact assembleLine_indexed (by simp) hrowc hne hds hn (if_pos rfl)
  · exact assembleLine_indexed (by simp) hcolc hne hds hn ((if_neg (by simp)).trans (if_pos rfl))

/-- Settles O15: the assembler run on each of the lines. -/
theorem assemblerReadsTheSpecLines : Obligations.AssemblerReadsTheSpecLines := by
  unfold Obligations.AssemblerReadsTheSpecLines
  decide +kernel

end Sys2Proof.Machine
end

section
/-! The dimension check, and what a construction reads and answers (40_bitimage.md R100 to R102). -/

namespace Sys2Proof.Machine

section
variable {x y : Nat}

theorem checkDims_of_x (hx : x < 1 ∨ 255 < x) : checkDims x y = some (dimensionError 1#8) :=
  if_pos hx

theorem checkDims_of_y (h1 : 1 ≤ x) (h2 : x ≤ 255) (hy : y < 1 ∨ 48 < y) :
    checkDims x y = some (dimensionError 2#8) := by
  rw [checkDims, if_neg (by simp only [Config.xsizeMin, Config.xsizeMax]; omega)]
  exact if_pos hy

theorem checkDims_of_area (h1 : 1 ≤ x) (h2 : x ≤ 255) (h3 : 1 ≤ y) (h4 : y ≤ 48)
    (harea : 1536 < x * y) : checkDims x y = some (dimensionError 3#8) := by
  rw [checkDims, if_neg (by simp only [Config.xsizeMin, Config.xsizeMax]; omega),
    if_neg (by simp only [Config.ysizeMin, Config.ysizeMax]; omega)]
  exact if_pos harea

end

/-- Settles O29: each clause is one branch of the check. -/
theorem checkDimsReportsFirstViolation : Obligations.CheckDimsReportsFirstViolation :=
  fun _ _ => ⟨checkDims_of_x, checkDims_of_y, checkDims_of_area,
    fun h1 h2 h3 h4 h5 => checkDims_none.mpr ⟨h1, h2, h3, h4, h5⟩⟩

/-- What a construction computes is a function of the operands alone, so two states that agree on them
differ only in what it is committed to. -/
theorem exec_construction {i : Instr} {s s' : State} (hi : constructs i = true)
    (h : KeepsOperands s s') : ∃ r, exec i s = construct r s ∧ exec i s' = construct r s' := by
  obtain ⟨hx, hy, hb, hd, -, -⟩ := h
  cases i
  case newZero => exact ⟨_, rfl, by rw [exec, execNewZero, hx, hy]⟩
  case newRaw => exact ⟨_, rfl, by rw [exec, execNewRaw, hx, hy, hb]⟩
  case decodeRaster => exact ⟨_, rfl, by rw [exec, execDecodeRaster, hb]⟩
  case packDm m => exact ⟨_, rfl, by rw [exec, execPackDm, hd]⟩
  all_goals cases hi

/-- A commit overwrites all but the operands and the host's lists. -/
theorem committed_of_keepsOperands {s s' : State} (h : KeepsOperands s s') (im : Image) :
    s'.committed im = s.committed im := by
  obtain ⟨hx, hy, hb, hd, hin, hout⟩ := h
  rw [State.committed, State.committed, hx, hy, hb, hd, hin, hout]

theorem reportable_ne_noImage {i : Instr} (hi : constructs i = true) :
    ∀ e ∈ reportable i, statusOf e ≠ 0x0105#16 := by
  cases i
  case newZero | newRaw | decodeRaster => decide
  case packDm => simp only [reportable]; decide
  all_goals cases hi

theorem construction_never_noImage {i : Instr} {s t : State} (hi : constructs i = true)
    (h : exec i s = .next t) : t.status ≠ 0x0105#16 := by
  cases exec_answers h with
  | committed | completed => exact (by decide : statusOk ≠ 0x0105#16)
  | failed e he => exact reportable_ne_noImage hi e he

/-- Settles O30: both states compute the same image or the same error. -/
theorem constructionsIgnoreTheHeldImage : Obligations.ConstructionsIgnoreTheHeldImage := by
  intro i s s' hi h
  obtain ⟨r, hr, hr'⟩ := exec_construction hi h
  cases r with
  | ok im =>
    exact ⟨_, _, hr, hr', rfl, construction_never_noImage hi hr,
      fun _ => (committed_of_keepsOperands h im).symm⟩
  | error e =>
    exact ⟨_, _, hr, hr', rfl, construction_never_noImage hi hr,
      fun hok => absurd hok (statusOf_ne_statusOk e)⟩

end Sys2Proof.Machine
end

section
/-! NEW_ZERO and NEW_RAW (40_bitimage.md R103, R104), and the pixels of the zero image. -/

namespace Sys2Proof.Machine

section
variable {s : State}

theorem exec_newZero_of_error {e : Err} (h : checkDims s.argX.toNat s.argY.toNat = some e) :
    exec .newZero s = endsInError s (statusOf e) := by
  rw [exec, execNewZero, zeroImage, h]
  rfl

theorem zeroImage_of_none {x y : Nat} (h : checkDims x y = none) :
    zeroImage x y = .ok ⟨x, y, List.replicate (8 * x * y) 0x00#8⟩ := by
  rw [zeroImage, h]
  rfl

/-- Without a dimension error the zero image is committed. -/
theorem exec_newZero_of_none (h : checkDims s.argX.toNat s.argY.toNat = none) :
    exec .newZero s = endsInImage s s.argX.toNat s.argY.toNat
      (List.replicate (8 * s.argX.toNat * s.argY.toNat) 0x00#8) := by
  rw [exec, execNewZero, zeroImage_of_none h]
  rfl

theorem exec_newRaw_of_error {e : Err}
    (h : (checkDims s.argX.toNat s.argY.toNat).or
      (rawLengthError s.argX.toNat s.argY.toNat s.argBytes) = some e) :
    exec .newRaw s = endsInError s (statusOf e) := by
  rw [exec, execNewRaw, rawImage, h]
  rfl

theorem exec_newRaw_of_dims {e : Err} (h : checkDims s.argX.toNat s.argY.toNat = some e) :
    exec .newRaw s = endsInError s (statusOf e) :=
  exec_newRaw_of_error (by rw [h, Option.some_or])

theorem exec_newRaw_of_length (h : checkDims s.argX.toNat s.argY.toNat = none)
    (hlen : s.argBytes.length ≠ 8 * s.argX.toNat * s.argY.toNat) :
    exec .newRaw s = endsInError s (statusOf (formatError 6#8)) :=
  exec_newRaw_of_error (by rw [h, Option.none_or, rawLengthError, if_pos hlen])

/-- Without an error the bytes are committed as they are. -/
theorem exec_newRaw_of_none (h : checkDims s.argX.toNat s.argY.toNat = none)
    (hlen : s.argBytes.length = 8 * s.argX.toNat * s.argY.toNat) :
    exec .newRaw s = endsInImage s s.argX.toNat s.argY.toNat s.argBytes := by
  rw [exec, execNewRaw, rawImage, h, Option.none_or, rawLengthError, if_neg (not_not_intro hlen)]
  rfl

end

/-- Settles O32: each clause is the first check that fails, or none. -/
theorem newRawStoresTheBytesVerbatim : Obligations.NewRawStoresTheBytesVerbatim :=
  ⟨by decide, fun _ =>
    ⟨fun hx => exec_newRaw_of_dims (checkDims_of_x hx),
      fun h1 h2 hy => exec_newRaw_of_dims (checkDims_of_y h1 h2 hy),
      fun h1 h2 h3 h4 harea => exec_newRaw_of_dims (checkDims_of_area h1 h2 h3 h4 harea),
      fun h1 h2 h3 h4 h5 => exec_newRaw_of_length (checkDims_none.mpr ⟨h1, h2, h3, h4, h5⟩),
      fun h1 h2 h3 h4 h5 => exec_newRaw_of_none (checkDims_none.mpr ⟨h1, h2, h3, h4, h5⟩)⟩⟩

section ZeroImage
variable {t : State} (hwf : Memory.wf t) (hv : t.valid = true) (hzero : ∀ b ∈ t.img, b = 0x00#8)
include hwf hv hzero

/-- R24 puts every pixel in IMG, and every byte there is 0. -/
theorem px_of_zero {r c : Nat} (hr : r < pixelHeight t) (hc : c < pixelWidth t) :
    px t r c = false := by
  rw [px, hzero _ (List.mem_of_getElem? (px_in_image hwf hv hr hc)), BitVec.getLsbD_zero]

theorem rowBits_of_zero {r : Nat} (hr : r < pixelHeight t) :
    rowBits t r = List.replicate (pixelWidth t) false := by
  refine List.eq_replicate_iff.mpr ⟨rowBits_length t r, List.forall_mem_map.mpr fun c hc => ?_⟩
  exact px_of_zero hwf hv hzero hr (List.mem_range.mp hc)

theorem colBits_of_zero {c : Nat} (hc : c < pixelWidth t) :
    colBits t c = List.replicate (pixelHeight t) false := by
  refine List.eq_replicate_iff.mpr ⟨colBits_length t c, List.forall_mem_map.mpr fun r hr => ?_⟩
  exact px_of_zero hwf hv hzero (List.mem_range.mp hr) hc

theorem matrixColumns_of_zero :
    matrixColumns t = List.replicate (pixelWidth t) (List.replicate (pixelHeight t) false) := by
  refine List.eq_replicate_iff.mpr ⟨matrixColumns_length t, List.forall_mem_map.mpr fun c hc => ?_⟩
  exact colBits_of_zero hwf hv hzero (List.mem_range.mp hc)

end ZeroImage

theorem pixelWidth_committed {im : Image} (h : im.Sized) (s : State) :
    pixelWidth (s.committed im) = 8 * im.x := by
  obtain ⟨-, hx, -⟩ := h
  rw [pixelWidth, State.committed_xsize, BitVec.toNat_ofNat, Nat.mod_eq_of_lt (by omega)]

theorem pixelHeight_committed {im : Image} (h : im.Sized) (s : State) :
    pixelHeight (s.committed im) = 8 * im.y := by
  obtain ⟨-, -, -, hy, -⟩ := h
  rw [pixelHeight, State.committed_ysize, BitVec.toNat_ofNat, Nat.mod_eq_of_lt (by omega)]

/-- Every accessor of a committed image of 0 bytes returns 0 bits, as many as its dimensions say. -/
theorem accessors_of_zeroBytes {im : Image} (him : im.Sized) (hzero : ∀ b ∈ im.bytes, b = 0x00#8)
    (s : State) :
    let t := s.committed im
    (∀ r, r < 8 * im.y →
      exec (.dotRow r) t = endsInResult t (.bits (List.replicate (8 * im.x) false))) ∧
    (∀ c, c < 8 * im.x →
      exec (.dotCol c) t = endsInResult t (.bits (List.replicate (8 * im.y) false))) ∧
    exec .dotMatrix t =
      endsInResult t (.columns (List.replicate (8 * im.x) (List.replicate (8 * im.y) false))) := by
  intro t
  have hwf : Memory.wf t := committed_wf s him
  rw [← pixelWidth_committed him s, ← pixelHeight_committed him s]
  refine ⟨fun r hr => ?_, fun c hc => ?_, ?_⟩
  · rw [← rowBits_of_zero hwf rfl hzero hr]
    exact execDotRow_completes rfl hr
  · rw [← colBits_of_zero hwf rfl hzero hc]
    exact execDotCol_completes rfl hc
  · rw [← matrixColumns_of_zero hwf rfl hzero]
    exact execDotMatrix_completes rfl

/-- Settles O31: the checks in order, then the zero image, whose pixels are all 0. -/
theorem newZeroBuildsTheZeroImage : Obligations.NewZeroBuildsTheZeroImage := by
  refine ⟨by decide, fun s => ⟨fun hx => exec_newZero_of_error (checkDims_of_x hx),
    fun h1 h2 hy => exec_newZero_of_error (checkDims_of_y h1 h2 hy),
    fun h1 h2 h3 h4 harea => exec_newZero_of_error (checkDims_of_area h1 h2 h3 h4 harea),
    fun h1 h2 h3 h4 h5 => ?_⟩⟩
  have hdims := checkDims_none.mpr ⟨h1, h2, h3, h4, h5⟩
  have hexec := exec_newZero_of_none hdims
  refine ⟨hexec, fun t ht => ?_⟩
  obtain rfl : s.committed ⟨_, _, _⟩ = t := Host.Outcome.next.inj (hexec.symm.trans ht)
  exact accessors_of_zeroBytes (zeroImage_sized (zeroImage_of_none hdims))
    (fun _ => List.eq_of_mem_replicate) s

end Sys2Proof.Machine
end

section
/-! DECODE_RASTER: its first failing check (41_raster_decode.md R121 to R127), the pixels of its image
(R128 to R133), and what it reads of a container (R120, R134). -/

namespace Sys2Proof.Machine

section
variable {b : List Byte}

theorem rasterHeaderError_of_noSignature (h : ¬(b[0]? = some 0x42#8 ∧ b[1]? = some 0x4D#8)) :
    rasterHeaderError b = some (formatError 1#8) :=
  if_pos ((signature_check b).mpr h)

variable (hsig : b[0]? = some 0x42#8 ∧ b[1]? = some 0x4D#8)
include hsig

theorem rasterHeaderError_of_short (h : b.length < 34) :
    rasterHeaderError b = some (formatError 4#8) := by
  rw [rasterHeaderError, if_neg ((signature_check b).not_left.mpr hsig)]
  exact if_pos h

theorem rasterHeaderError_of_depth (hlen : 34 ≤ b.length) (h : rasterDepth b ≠ 1) :
    rasterHeaderError b = some (formatError 2#8) := by
  rw [rasterHeaderError, if_neg ((signature_check b).not_left.mpr hsig), if_neg (Nat.not_lt.mpr hlen)]
  exact if_pos h

theorem rasterHeaderError_of_compression (hlen : 34 ≤ b.length) (hdepth : rasterDepth b = 1)
    (h : rasterCompression b ≠ 0) : rasterHeaderError b = some (formatError 3#8) := by
  rw [rasterHeaderError, if_neg ((signature_check b).not_left.mpr hsig), if_neg (Nat.not_lt.mpr hlen),
    if_neg (not_not_intro hdepth)]
  exact if_pos h

end

section
variable {s : State} {e : Err}

theorem exec_decodeRaster_of_error (h : rasterError s.argBytes = some e) :
    exec .decodeRaster s = endsInError s (statusOf e) := by
  rw [exec, execDecodeRaster, rasterImage, h]
  rfl

theorem exec_decodeRaster_of_header (h : rasterHeaderError s.argBytes = some e) :
    exec .decodeRaster s = endsInError s (statusOf e) :=
  exec_decodeRaster_of_error (by rw [rasterError, h, Option.some_or])

variable (hh : RasterHeaderOk s.argBytes)
include hh

theorem exec_decodeRaster_of_dims (hw : 1 ≤ rasterWidth s.argBytes)
    (h : checkDims (rasterRowBytes s.argBytes) (ceilDiv8 (rasterRows s.argBytes)) = some e) :
    exec .decodeRaster s = endsInError s (statusOf e) :=
  exec_decodeRaster_of_error (by rw [rasterError_of_headerOk hh hw, h, Option.some_or])

/-- A width of 0 or less has a check of its own; one above 2040 is too wide in bytes (R126). -/
theorem exec_decodeRaster_of_width
    (hw : rasterWidth s.argBytes < 1 ∨ 2040 < rasterWidth s.argBytes) :
    exec .decodeRaster s = endsInError s (statusOf (dimensionError 1#8)) := by
  rcases hw with hlow | hhigh
  · apply exec_decodeRaster_of_error
    rw [rasterError, rasterHeaderError_none hh, Option.none_or, rasterWidthError,
      if_pos (Int.lt_add_one_iff.mp hlow), Option.some_or]
  · refine exec_decodeRaster_of_dims hh (by omega) (checkDims_of_x (.inr ?_))
    rw [rasterRowBytes, ceilDiv8]
    omega

theorem exec_decodeRaster_of_bound (hs : RasterSizeOk s.argBytes)
    (h : s.argBytes.length < rasterEnd s.argBytes) :
    exec .decodeRaster s = endsInError s (statusOf (formatError 5#8)) := by
  apply exec_decodeRaster_of_error
  rw [rasterError_of_headerOk hh hs.1, checkDims_of_rasterSizeOk hs, Option.none_or, rasterBoundError,
    if_pos h]

end

/-- A legal width is of 1 to 255 bytes (R126). -/
theorem rasterRowBytes_range {b : List Byte} (h1 : 1 ≤ rasterWidth b) (h2 : rasterWidth b ≤ 2040) :
    1 ≤ rasterRowBytes b ∧ rasterRowBytes b ≤ 255 := by
  rw [rasterRowBytes, ceilDiv8]
  omega

/-- Settles O35: each clause is the first check that fails. -/
theorem decodeRasterReportsItsFirstFailingCheck :
    Obligations.DecodeRasterReportsItsFirstFailingCheck := by
  intro s b sig w rows
  refine ⟨fun h => exec_decodeRaster_of_header (rasterHeaderError_of_noSignature h),
    fun h hlen => exec_decodeRaster_of_header (rasterHeaderError_of_short h hlen),
    fun h hlen hd => exec_decodeRaster_of_header (rasterHeaderError_of_depth h hlen hd),
    fun h hlen hd hc => exec_decodeRaster_of_header (rasterHeaderError_of_compression h hlen hd hc),
    exec_decodeRaster_of_width, fun hh h1 h2 hrows => ?_, fun hh h1 h2 h3 h4 harea => ?_,
    exec_decodeRaster_of_bound⟩
  · obtain ⟨hx1, hx2⟩ := rasterRowBytes_range h1 h2
    have hy : ceilDiv8 rows < 1 ∨ 48 < ceilDiv8 rows := by
      rw [ceilDiv8]
      omega
    exact exec_decodeRaster_of_dims hh h1 (checkDims_of_y hx1 hx2 hy)
  · obtain ⟨hx1, hx2⟩ := rasterRowBytes_range h1 h2
    have hy : 1 ≤ ceilDiv8 rows ∧ ceilDiv8 rows ≤ 48 := by
      rw [ceilDiv8]
      omega
    exact exec_decodeRaster_of_dims hh h1 (checkDims_of_area hx1 hx2 hy.1 hy.2 harea)

section
variable {b : List Byte} {r c : Nat}

/-- Either way up, a row of the image is one of the stored rows (R128). -/
theorem storedRow_le (h : r < rasterRows b) : storedRow b r ≤ rasterRows b - 1 := by
  unfold storedRow
  split_ifs <;> omega

/-- A stored pixel is read from a byte that is there, before the end of the pixel data (R127). -/
theorem rasterPixel_stored (hr : r < rasterRows b) (hc : c < 8 * rasterRowBytes b)
    (hend : rasterEnd b ≤ b.length) :
    ∃ p, b[rasterOffs b + storedRow b r * rasterStride b + c / 8]? = some p ∧
      rasterPixel b r c = p.getLsbD (7 - c % 8) := by
  refine ⟨_, byteAt_of_lt ?_, if_pos hr⟩
  have hrow := Nat.mul_le_mul_right (rasterStride b) (storedRow_le hr)
  rw [rasterEnd] at hend
  omega

theorem rasterPixel_filler (hr : rasterRows b ≤ r) : rasterPixel b r c = true :=
  if_neg (Nat.not_lt.mpr hr)

end

theorem sizes_committed {im : Image} (h : im.Sized) (s : State) :
    (s.committed im).xsize.toNat = im.x ∧ (s.committed im).ysize.toNat = im.y := by
  obtain ⟨-, hx, -, hy, -⟩ := h
  rw [State.committed_xsize, State.committed_ysize, BitVec.toNat_ofNat, BitVec.toNat_ofNat]
  exact ⟨Nat.mod_eq_of_lt (by omega), Nat.mod_eq_of_lt (by omega)⟩

theorem exec_decodeRaster_of_none {s : State} (hh : RasterHeaderOk s.argBytes)
    (hs : RasterSizeOk s.argBytes) (hend : rasterEnd s.argBytes ≤ s.argBytes.length) :
    exec .decodeRaster s = .next (s.committed ⟨rasterRowBytes s.argBytes,
      ceilDiv8 (rasterRows s.argBytes), rasterBytes s.argBytes⟩) := by
  rw [exec, execDecodeRaster, rasterImage_ok hh hs hend]
  rfl

theorem committed_keepsOperands (im : Image) (s : State) : KeepsOperands s (s.committed im) :=
  ⟨rfl, rfl, rfl, rfl, rfl, rfl⟩

/-- Settles O36: a bit of the image is the complement of its pixel, which is read inside the container
or is the 1 of a filler row. -/
theorem decodeRasterImageIsTheInvertedRaster : Obligations.DecodeRasterImageIsTheInvertedRaster := by
  intro s b x rows y stride hh hs hend
  have hsized := rasterImage_sized (rasterImage_ok hh hs hend)
  obtain ⟨hx, hy⟩ := sizes_committed hsized s
  obtain ⟨-, -, -, -, -, hlen⟩ := hsized
  refine ⟨_, exec_decodeRaster_of_none hh hs hend, hx, hy, rfl, hlen, rfl, rfl,
    committed_keepsOperands _ s, fun c band i hc hband hi => ?_⟩
  obtain ⟨v, hv, hbit⟩ := rasterBytes_bit hc hband hi
  refine ⟨v, hv, fun hrow => ?_, fun hrow => ?_⟩
  · obtain ⟨p, hp, hpixel⟩ := rasterPixel_stored hrow hc hend
    exact ⟨p, hp, by rw [hbit, hpixel]⟩
  · rw [hbit, rasterPixel_filler hrow, Bool.not_true]

theorem byteAt_congr {b b' : List Byte} {k : Nat} (h : b'[k]? = b[k]?) : byteAt b' k = byteAt b k := by
  rw [byteAt, byteAt, h]

theorem memRead_congr {b b' : List Byte} {a n : Nat} (h : ∀ k, a ≤ k → k < a + n → b'[k]? = b[k]?) :
    memRead b' a n = memRead b a n := by
  refine congrArg List.sum (List.map_congr_left fun k hk => ?_)
  have hlt := List.mem_range.mp hk
  rw [byteAt_congr (h (a + k) (by omega) (by omega))]

/-- The places of a container that DECODE_RASTER may read: the fields of R120 and all from the
pixel-data offset on (R134). -/
def RasterReads (b : List Byte) (k : Nat) : Prop :=
  k < 2 ∨ (10 ≤ k ∧ k < 14) ∨ (18 ≤ k ∧ k < 26) ∨ (28 ≤ k ∧ k < 34) ∨ rasterOffs b ≤ k

section
variable {b b' : List Byte} (hread : ∀ k, RasterReads b k → b'[k]? = b[k]?)
include hread

theorem rasterOffs_congr : rasterOffs b' = rasterOffs b :=
  memRead_congr fun k h1 h2 => hread k (.inr (.inl ⟨h1, h2⟩))

theorem rasterWidth_congr : rasterWidth b' = rasterWidth b :=
  congrArg sext32 (memRead_congr fun k h1 h2 => hread k (.inr (.inr (.inl ⟨h1, h2.trans (by decide)⟩))))

theorem rasterHeight_congr : rasterHeight b' = rasterHeight b :=
  congrArg sext32 (memRead_congr fun k h1 h2 => hread k (.inr (.inr (.inl ⟨le_trans (by decide) h1, h2⟩))))

theorem rasterDepth_congr : rasterDepth b' = rasterDepth b :=
  memRead_congr fun k h1 h2 => hread k (.inr (.inr (.inr (.inl ⟨h1, h2.trans (by decide)⟩))))

theorem rasterCompression_congr : rasterCompression b' = rasterCompression b :=
  memRead_congr fun k h1 h2 => hread k (.inr (.inr (.inr (.inl ⟨le_trans (by decide) h1, h2⟩))))

theorem rasterRowBytes_congr : rasterRowBytes b' = rasterRowBytes b :=
  congrArg (fun w : Int => ceilDiv8 w.toNat) (rasterWidth_congr hread)

theorem rasterRows_congr : rasterRows b' = rasterRows b :=
  congrArg Int.natAbs (rasterHeight_congr hread)

theorem rasterStride_congr : rasterStride b' = rasterStride b :=
  congrArg (fun n => 4 * ((n + 3) / 4)) (rasterRowBytes_congr hread)

theorem storedRow_congr : storedRow b' = storedRow b := by
  funext r
  rw [storedRow, storedRow, rasterHeight_congr hread, rasterRows_congr hread]

/-- Every stored pixel lies at or after the pixel-data offset. -/
theorem rasterPixel_congr : rasterPixel b' = rasterPixel b := by
  funext r c
  have hbyte : byteAt b' (rasterOffs b + storedRow b r * rasterStride b + c / 8) =
      byteAt b (rasterOffs b + storedRow b r * rasterStride b + c / 8) :=
    byteAt_congr (hread _ (by unfold RasterReads; omega))
  rw [rasterPixel, rasterPixel, rasterRows_congr hread, rasterOffs_congr hread, storedRow_congr hread,
    rasterStride_congr hread, hbyte]

theorem rasterBytes_congr : rasterBytes b' = rasterBytes b := by
  rw [rasterBytes, rasterBytes, rasterPixel_congr hread, rasterRowBytes_congr hread,
    rasterRows_congr hread]

variable (hlen : b'.length = b.length)
include hlen

theorem rasterHeaderError_congr : rasterHeaderError b' = rasterHeaderError b := by
  rw [rasterHeaderError, rasterHeaderError, hlen, byteAt_congr (hread 0 (.inl (by decide))),
    byteAt_congr (hread 1 (.inl (by decide))), rasterDepth_congr hread, rasterCompression_congr hread]

theorem rasterBoundError_congr : rasterBoundError b' = rasterBoundError b := by
  rw [rasterBoundError, rasterBoundError, rasterEnd, rasterEnd, hlen, rasterOffs_congr hread,
    rasterRows_congr hread, rasterStride_congr hread, rasterRowBytes_congr hread]

theorem rasterError_congr : rasterError b' = rasterError b := by
  rw [rasterError, rasterError, rasterHeaderError_congr hread hlen, rasterWidthError, rasterWidthError,
    rasterWidth_congr hread, rasterRowBytes_congr hread, rasterRows_congr hread,
    rasterBoundError_congr hread hlen]

theorem rasterImage_congr : rasterImage b' = rasterImage b := by
  rw [rasterImage, rasterImage, rasterError_congr hread hlen, rasterRowBytes_congr hread,
    rasterRows_congr hread, rasterBytes_congr hread]

end

/-- A construction neither reads nor writes ARG_BYTES itself. -/
theorem construct_argBytes (r : Except Err Image) (s : State) (b : List Byte) :
    ∃ t, construct r s = .next t ∧
      construct r { s with argBytes := b } = .next { t with argBytes := b } := by
  cases r with
  | ok im => exact ⟨_, rfl, rfl⟩
  | error e => exact ⟨_, rfl, rfl⟩

/-- Settles O37: both containers give one image or one error. -/
theorem decodeRasterIgnoresOtherHeaderBytes : Obligations.DecodeRasterIgnoresOtherHeaderBytes := by
  intro s s' hs hlen hread
  have himage : rasterImage s'.argBytes = rasterImage s.argBytes := rasterImage_congr hread hlen
  obtain ⟨t, ht, ht'⟩ := construct_argBytes (rasterImage s.argBytes) s s'.argBytes
  refine ⟨t, ht, ?_⟩
  rw [exec, execDecodeRaster, himage, hs]
  exact ht'

end Sys2Proof.Machine
end

section
/-! PACK_DM: its first failing check (42_dotmatrix_pack.md R161 to R163, R168), the bits of its image
(R164, R165), and what the accessors return of it in each bit order (R166, R167). -/

namespace Sys2Proof.Machine

section
variable {d : List (List Bool)} {l : Nat}

/-- Columns that differ in length cannot all be as long as column 0. -/
theorem dmStructure_of_unequal (h : ∃ a ∈ d, ∃ b ∈ d, a.length ≠ b.length) :
    dmStructure d = some (formatError 7#8) := by
  refine if_pos ?_
  by_contra hequal
  push Not at hequal
  obtain ⟨a, ha, b, hb, hne⟩ := h
  exact hne ((hequal a ha).trans (hequal b hb).symm)

theorem dmLength_of_rect (hne : d ≠ []) (h : DmRect d l) : dmLength d = l := by
  cases d with
  | nil => exact absurd rfl hne
  | cons col _ => exact h col List.mem_cons_self

/-- On a non-empty rectangle only the two divisibility checks are left (R162). -/
theorem dmStructure_of_rect (hne : d ≠ []) (h : DmRect d l) :
    dmStructure d = if l % 8 ≠ 0 then some (formatError 8#8)
      else if d.length % 8 ≠ 0 then some (formatError 9#8) else none := by
  have hequal : ¬∃ col ∈ d, col.length ≠ l := by
    simpa using h
  rw [dmStructure, dmLength_of_rect hne h, if_neg hequal, if_neg (mt List.length_eq_zero_iff.mp hne)]

/-- A rectangle of multiples of 8 passes the structural checks. -/
theorem dmStructure_of_multiples (hne : d ≠ []) (h : DmRect d l) (hl : l % 8 = 0)
    (hd : d.length % 8 = 0) : dmStructure d = none := by
  rw [dmStructure_of_rect hne h, if_neg (not_not_intro hl), if_neg (not_not_intro hd)]

end

section
variable {s : State} {e : Err} (m : BitOrder)

theorem exec_packDm_of_error
    (h : (dmStructure s.argDm).or (checkDims (s.argDm.length / 8) (dmLength s.argDm / 8)) = some e) :
    exec (.packDm m) s = endsInError s (statusOf e) := by
  rw [exec, execPackDm, dmImage, h]
  rfl

theorem exec_packDm_of_structure (h : dmStructure s.argDm = some e) :
    exec (.packDm m) s = endsInError s (statusOf e) :=
  exec_packDm_of_error m (by rw [h, Option.some_or])

/-- On a rectangle of multiples of 8 the dimension check decides (R163). -/
theorem exec_packDm_of_dims {l : Nat} (hne : s.argDm ≠ []) (h : DmRect s.argDm l) (hl : l % 8 = 0)
    (hd : s.argDm.length % 8 = 0) (he : checkDims (s.argDm.length / 8) (l / 8) = some e) :
    exec (.packDm m) s = endsInError s (statusOf e) :=
  exec_packDm_of_error m (by
    rw [dmStructure_of_multiples hne h hl hd, dmLength_of_rect hne h, he, Option.none_or])

end

/-- Settles O38: each clause is the first check that fails. -/
theorem packDmReportsItsFirstFailingCheck : Obligations.PackDmReportsItsFirstFailingCheck := by
  intro m s
  dsimp only
  refine ⟨fun h => exec_packDm_of_structure m (dmStructure_of_unequal h), fun l hne h => ?_,
    fun hempty => exec_packDm_of_structure m (by rw [hempty]; rfl)⟩
  have hpos : 0 < s.argDm.length := List.length_pos_iff.mpr hne
  refine ⟨fun hl => ?_, fun hl hd => ?_, fun hl hd hwide => ?_, fun hl hd hx hy => ?_,
    fun hl hd hx hy1 hy2 harea => ?_⟩
  · exact exec_packDm_of_structure m (by rw [dmStructure_of_rect hne h, if_pos hl])
  · exact exec_packDm_of_structure m
      (by rw [dmStructure_of_rect hne h, if_neg (not_not_intro hl), if_pos hd])
  · exact exec_packDm_of_dims m hne h hl hd (checkDims_of_x (by omega))
  · exact exec_packDm_of_dims m hne h hl hd (checkDims_of_y (by omega) (by omega) (by omega))
  · exact exec_packDm_of_dims m hne h hl hd
      (checkDims_of_area (by omega) (by omega) (by omega) (by omega) harea)

theorem groupBit_lt (m : BitOrder) {k : Nat} (hk : k < 8) : groupBit m k < 8 := by
  cases m with
  | lsbFirst => exact hk
  | msbFirst => exact Nat.lt_succ_of_le (Nat.sub_le 7 k)

/-- Reversing a group twice restores it. -/
theorem groupBit_groupBit (m : BitOrder) {k : Nat} (hk : k < 8) : groupBit m (groupBit m k) = k := by
  cases m with
  | lsbFirst => rfl
  | msbFirst => exact Nat.sub_sub_self (Nat.le_of_lt_succ hk)

theorem foldBits_getLsbD (m : BitOrder) (t : Nat → Bool) {i : Nat} (hi : i < 8) :
    (foldBits m t).getLsbD i = t (groupBit m i) := by
  cases m with
  | lsbFirst => exact byteOfBits_getLsbD t i hi
  | msbFirst => exact byteOfBits_getLsbD (fun k => t (7 - k)) i hi

/-- The image PACK_DM builds of a matrix of columns of length `l` (R161); `dmImage_of_valid` ties it to
`dmImage`. -/
def dmPacked (m : BitOrder) (d : List (List Bool)) (l : Nat) : Image :=
  ⟨d.length / 8, l / 8, packPixels m (fun r c => dmBit d c r) d.length (l / 8)⟩

theorem dmPacked_bytes_length (m : BitOrder) (d : List (List Bool)) (l : Nat) :
    (dmPacked m d l).bytes.length = d.length * (l / 8) := by
  rw [dmPacked, packPixels_length]

theorem dmPacked_bytes_getElem? (m : BitOrder) {d : List (List Bool)} {l c g : Nat}
    (hc : c < d.length) (hg : g < l / 8) :
    (dmPacked m d l).bytes[c * (l / 8) + g]? =
      some (foldBits m (fun k => dmBit d c (8 * g + k))) := by
  rw [dmPacked, packPixels_getElem? m _ hc hg]

section
variable {m : BitOrder} {d : List (List Bool)} {l : Nat} (h : DmValid d l)
include h

theorem dmImage_of_valid : dmImage m d = .ok (dmPacked m d l) := by
  obtain ⟨hrect, hl, hd, hx1, hx2, hy1, hy2, harea⟩ := h
  have hne : d ≠ [] := List.length_pos_iff.mp (by omega)
  have hdims : checkDims (d.length / 8) (l / 8) = none :=
    checkDims_none.mpr ⟨by omega, by omega, by omega, by omega, harea⟩
  rw [dmImage, dmLength_of_rect hne hrect, dmStructure_of_multiples hne hrect hl hd, hdims]
  rfl

theorem dmPacked_sized : (dmPacked m d l).Sized := dmImage_sized (dmImage_of_valid h)

/-- Every element of a valid matrix is there to be read. -/
theorem dmBit_of_valid {c r : Nat} {col : List Bool} (hcol : d[c]? = some col) (hr : r < l) :
    col[r]? = some (dmBit d c r) := by
  obtain ⟨hrect, -⟩ := h
  have hlen : r < col.length := (hrect col (List.mem_of_getElem? hcol)).symm ▸ hr
  rw [dmBit_of_getElem? hcol (List.getElem?_eq_getElem hlen), List.getElem?_eq_getElem hlen]

/-- The byte of column c and group g, bit by bit, in the group's own order (R164, R165). -/
theorem dmPacked_byte {c g : Nat} {col : List Bool} (hcol : d[c]? = some col) (hg : g < l / 8) :
    ∃ v, (dmPacked m d l).bytes[c * (l / 8) + g]? = some v ∧
      ∀ i, i < 8 → col[8 * g + groupBit m i]? = some (v.getLsbD i) := by
  have hc : c < d.length := (List.getElem?_eq_some_iff.mp hcol).1
  refine ⟨_, dmPacked_bytes_getElem? m hc hg, fun i hi => ?_⟩
  have hbit : groupBit m i < 8 := groupBit_lt m hi
  rw [foldBits_getLsbD m _ hi, dmBit_of_valid h hcol (by omega)]

end

section
variable {m : BitOrder} {s : State} {l : Nat} (h : DmValid s.argDm l)
include h

theorem exec_packDm_of_valid :
    exec (.packDm m) s = .next (s.committed (dmPacked m s.argDm l)) := by
  rw [exec, execPackDm, dmImage_of_valid h]
  rfl

theorem eq_committed_of_exec_packDm {t : State} (ht : exec (.packDm m) s = .next t) :
    s.committed (dmPacked m s.argDm l) = t :=
  Host.Outcome.next.inj ((exec_packDm_of_valid h).symm.trans ht)

theorem pixelWidth_dmPacked :
    pixelWidth (s.committed (dmPacked m s.argDm l)) = s.argDm.length := by
  have ⟨_, _, hd, _⟩ := h
  rw [pixelWidth_committed (dmPacked_sized h)]
  exact Nat.mul_div_cancel' (Nat.dvd_of_mod_eq_zero hd)

theorem pixelHeight_dmPacked : pixelHeight (s.committed (dmPacked m s.argDm l)) = l := by
  have ⟨_, hl, _⟩ := h
  rw [pixelHeight_committed (dmPacked_sized h)]
  exact Nat.mul_div_cancel' (Nat.dvd_of_mod_eq_zero hl)

theorem lt_pixelWidth_dmPacked {c : Nat} {col : List Bool} (hcol : s.argDm[c]? = some col) :
    c < pixelWidth (s.committed (dmPacked m s.argDm l)) := by
  rw [pixelWidth_dmPacked h]
  exact (List.getElem?_eq_some_iff.mp hcol).1

/-- The accessors read every group MSB-first, in whichever order it was packed (R180, R164). -/
theorem px_dmPacked {c r : Nat} {col : List Bool} (hcol : s.argDm[c]? = some col) (hr : r < l) :
    col[8 * (r / 8) + groupBit m (7 - r % 8)]? =
      some (px (s.committed (dmPacked m s.argDm l)) r c) := by
  have ⟨_, hl, _⟩ := h
  obtain ⟨v, hv, hbits⟩ := dmPacked_byte (m := m) h hcol (show r / 8 < l / 8 by omega)
  obtain ⟨-, hy⟩ := sizes_committed (dmPacked_sized (m := m) h) s
  rw [px_of_byte (v := v) (by rw [hy]; exact hv)]
  exact hbits _ (by omega)

theorem px_dmPacked_msb {c r : Nat} {col : List Bool} (hcol : s.argDm[c]? = some col) (hr : r < l) :
    col[r]? = some (px (s.committed (dmPacked .msbFirst s.argDm l)) r c) := by
  have hindex : 8 * (r / 8) + groupBit .msbFirst (7 - r % 8) = r := by
    rw [groupBit]
    omega
  rw [← px_dmPacked h hcol hr, hindex]

theorem colBits_dmPacked_msb {c : Nat} {col : List Bool} (hcol : s.argDm[c]? = some col) :
    colBits (s.committed (dmPacked .msbFirst s.argDm l)) c = col := by
  have ⟨hrect, _⟩ := h
  have hheight := pixelHeight_dmPacked (m := .msbFirst) h
  refine List.ext_getElem?' fun r hr => ?_
  rw [colBits_length, hheight, hrect col (List.mem_of_getElem? hcol), max_self] at hr
  rw [colBits_getElem? c (hheight.symm ▸ hr), px_dmPacked_msb h hcol hr]

theorem matrixColumns_dmPacked_msb :
    matrixColumns (s.committed (dmPacked .msbFirst s.argDm l)) = s.argDm := by
  refine List.ext_getElem?' fun c hc => ?_
  rw [matrixColumns_length, pixelWidth_dmPacked h, max_self] at hc
  have hcol := List.getElem?_eq_getElem hc
  rw [matrixColumns_getElem? (lt_pixelWidth_dmPacked h hcol), colBits_dmPacked_msb h hcol, hcol]

end

/-- Settles O39: the committed image, each of its bytes folded from one group. -/
theorem packDmFoldsGroupsColumnByColumn : Obligations.PackDmFoldsGroupsColumnByColumn := by
  intro m s l h
  obtain ⟨hx, hy⟩ := sizes_committed (dmPacked_sized (m := m) h) s
  refine ⟨_, exec_packDm_of_valid h, hx, hy, rfl, dmPacked_bytes_length m _ l, rfl, rfl,
    committed_keepsOperands _ s, fun c g k hc hg hk => ?_⟩
  have hcol := List.getElem?_eq_getElem hc
  obtain ⟨v, hv, hbits⟩ := dmPacked_byte (m := m) h hcol hg
  have hbit := hbits _ (groupBit_lt m hk)
  rw [groupBit_groupBit m hk] at hbit
  exact ⟨v, _, hv, hcol, hbit⟩

/-- Settles O40: the accessors read MSB-first, so every pixel is the matrix element it was packed from. -/
theorem msbPackingRoundTrips : Obligations.MsbPackingRoundTrips := by
  intro s t l h ht
  obtain rfl := eq_committed_of_exec_packDm h ht
  refine ⟨?_, fun c col hcol => ?_, fun r hr => ?_⟩
  · exact (execDotMatrix_completes rfl).trans (by rw [matrixColumns_dmPacked_msb h]; rfl)
  · exact (execDotCol_completes rfl (lt_pixelWidth_dmPacked h hcol)).trans
      (by rw [colBits_dmPacked_msb h hcol]; rfl)
  · refine ⟨_, execDotRow_completes rfl ((pixelHeight_dmPacked h).symm ▸ hr),
      by rw [rowBits_length, pixelWidth_dmPacked h], fun c col hcol => ?_⟩
    rw [rowBits_getElem? r (lt_pixelWidth_dmPacked h hcol), px_dmPacked_msb h hcol hr]

/-- Settles O41: a group packed LSB-first is read MSB-first. -/
theorem lsbPackingReversesEachGroup : Obligations.LsbPackingReversesEachGroup := by
  intro s t l h ht c col hcol
  obtain rfl := eq_committed_of_exec_packDm h ht
  have hheight := pixelHeight_dmPacked (m := .lsbFirst) h
  refine ⟨_, execDotCol_completes rfl (lt_pixelWidth_dmPacked h hcol),
    by rw [colBits_length, hheight], fun r hr => ?_⟩
  have hindex : 8 * (r / 8) + groupBit .lsbFirst (7 - r % 8) = 8 * (r / 8) + 7 - r % 8 := by
    rw [groupBit]
    omega
  rw [colBits_getElem? c (hheight.symm ▸ hr), ← px_dmPacked h hcol hr, hindex]

end Sys2Proof.Machine
end

section
/-! The accessors DOT_ROW, DOT_COL and DOT_MATRIX (43_views.md R180 to R187): their words, their errors in
order, the byte of IMG behind each bit they return, and how PACK_DM.msb rebuilds the image from its columns. -/

namespace Sys2Proof.Machine

/-- OP, M and IDX are the digits of a command word, RSV being 0 (R71). -/
theorem encode_toNat {i : Instr} (h : WellFormed i) :
    (encode i).toNat = 65536 * i.idx + 256 * i.mBit.toNat + i.op.code.toNat := by
  have hop : (encode i).toNat % 256 = i.op.code.toNat := by
    rw [← opField_toNat, encode, opField_packWord]
  have hm : (encode i).toNat / 256 % 2 = i.mBit.toNat := by
    rw [← mField_toNat, encode, mField_packWord]
  have hrsv : (encode i).toNat / 512 % 128 = 0 := by
    rw [← rsvField_toNat, encode, rsvField_packWord, BitVec.toNat_zero]
  have hidx : (encode i).toNat / 65536 = i.idx := by
    rw [← idxValue_eq_div, idxValue_encode h]
  omega

section Errors
variable {s : State}

/-- Whatever an accessor would compute, without an image it raises NoImage(1) (R181). -/
theorem access_of_noImage (hv : s.valid = false) (r : Except Err Result) :
    access r s = endsInError s 0x0105#16 :=
  if_neg (Bool.eq_false_iff.mp hv)

theorem access_error (hv : s.valid = true) (e : Err) :
    access (.error e) s = endsInError s (statusOf e) := by
  rw [access, hv]
  rfl

theorem exec_dotRow_of_outside {r : Nat} (hv : s.valid = true) (hr : pixelHeight s ≤ r) :
    exec (.dotRow r) s = endsInError s 0x0103#16 := by
  rw [exec, execDotRow, dotRowResult, if_pos hr]
  exact access_error hv (indexError 1#8)

theorem exec_dotCol_of_outside {c : Nat} (hv : s.valid = true) (hc : pixelWidth s ≤ c) :
    exec (.dotCol c) s = endsInError s 0x0203#16 := by
  rw [exec, execDotCol, dotColResult, if_pos hc]
  exact access_error hv (indexError 2#8)

end Errors

/-- Settles O42: the image check comes before the result is looked at. -/
theorem accessorsNeedAnImage : Obligations.AccessorsNeedAnImage :=
  fun s hv => ⟨fun n => access_of_noImage hv (dotRowResult n s),
    fun n => access_of_noImage hv (dotColResult n s),
    access_of_noImage hv (.ok (.columns (matrixColumns s))),
    access_of_noImage hv (.ok (.bytes (exportBytes s)))⟩

/-- Settles O46: the three results are lists of `px`, read at the same row and column. -/
theorem accessorsAgreeOnEveryPixel : Obligations.AccessorsAgreeOnEveryPixel :=
  fun s r c hv hr hc => ⟨rowBits s r, colBits s c, matrixColumns s, colBits s c,
    execDotRow_completes hv hr, execDotCol_completes hv hc, execDotMatrix_completes hv,
    matrixColumns_getElem? hc, rowBits_getElem? r hc, colBits_getElem? c hr, colBits_getElem? c hr⟩

/-- Bit `i` of a byte is the pixel `7 - i` rows below the top of its band (R180). -/
theorem px_of_group {s : State} {c g i : Nat} {w : Byte}
    (hw : s.img[c * s.ysize.toNat + g]? = some w) (hi : i < 8) :
    px s (8 * g + (7 - i)) c = w.getLsbD i := by
  have hband : (8 * g + (7 - i)) / 8 = g := by omega
  have hbit : 7 - (8 * g + (7 - i)) % 8 = i := by omega
  rw [px_of_byte (v := w) (by rw [hband]; exact hw), hbit]

theorem pixelWidth_div (s : State) : pixelWidth s / 8 = s.xsize.toNat :=
  Nat.mul_div_cancel_left _ (by decide)

theorem pixelHeight_div (s : State) : pixelHeight s / 8 = s.ysize.toNat :=
  Nat.mul_div_cancel_left _ (by decide)

section HeldImage
variable {s : State} (hwf : Memory.wf s) (hv : s.valid = true)
include hwf hv

/-- Element `r` of a column is a bit of the byte R25 places it in. -/
theorem colBits_bit {r c : Nat} (hr : r < pixelHeight s) (hc : c < pixelWidth s) :
    ∃ v, s.img[c * s.ysize.toNat + r / 8]? = some v ∧
      (colBits s c)[r]? = some (v.getLsbD (7 - r % 8)) :=
  ⟨_, px_in_image hwf hv hr hc, colBits_getElem? c hr⟩

theorem exists_byte {c g : Nat} (hc : c < pixelWidth s) (hg : g < s.ysize.toNat) :
    ∃ w, s.img[c * s.ysize.toNat + g]? = some w := by
  have hrow : 8 * g < pixelHeight s := Nat.mul_lt_mul_of_pos_left hg (by decide)
  obtain ⟨w, hw, -⟩ := colBits_bit hwf hv hrow hc
  rw [Nat.mul_div_cancel_left g (by decide)] at hw
  exact ⟨w, hw⟩

/-- R24 keeps the columns of a held image within what PACK_DM accepts. -/
theorem matrixColumns_valid : DmValid (matrixColumns s) (pixelHeight s) := by
  obtain ⟨held, -⟩ := hwf
  obtain ⟨hx1, hx2, hy1, hy2, harea, -⟩ := held hv
  have hrect : DmRect (matrixColumns s) (pixelHeight s) :=
    List.forall_mem_map.mpr fun c _ => colBits_length s c
  rw [DmValid, matrixColumns_length, pixelWidth_div, pixelHeight_div]
  exact ⟨hrect, Nat.mul_mod_right 8 _, Nat.mul_mod_right 8 _, Nat.mul_le_mul_left 8 hx1,
    Nat.mul_le_mul_left 8 hx2, Nat.mul_le_mul_left 8 hy1, Nat.mul_le_mul_left 8 hy2, harea⟩

/-- Packing the columns MSB-first puts every bit back where the accessors read it (R180, R164). -/
theorem dmPacked_matrixColumns_byte {c g : Nat} (hc : c < pixelWidth s) (hg : g < s.ysize.toNat) :
    (dmPacked .msbFirst (matrixColumns s) (pixelHeight s)).bytes[c * s.ysize.toNat + g]? =
      s.img[c * s.ysize.toNat + g]? := by
  have hrow {i : Nat} : 8 * g + (7 - i) < pixelHeight s := by
    rw [pixelHeight]
    omega
  obtain ⟨v, hpacked, hbits⟩ := dmPacked_byte (m := .msbFirst) (matrixColumns_valid hwf hv)
    (matrixColumns_getElem? hc) ((pixelHeight_div s).symm ▸ hg)
  obtain ⟨w, hheld⟩ := exists_byte hwf hv hc hg
  rw [pixelHeight_div] at hpacked
  rw [hpacked, hheld, Option.some_inj]
  refine BitVec.eq_of_getLsbD_eq fun i hi => ?_
  have hbit : (colBits s c)[8 * g + (7 - i)]? = some (v.getLsbD i) := hbits i hi
  rw [colBits_getElem? c hrow, px_of_group hheld hi] at hbit
  exact (Option.some.inj hbit).symm

/-- PACK_DM.msb of the columns DOT_MATRIX returns is the held image (R186). -/
theorem dmPacked_matrixColumns : dmPacked .msbFirst (matrixColumns s) (pixelHeight s) =
    ⟨s.xsize.toNat, s.ysize.toNat, s.img⟩ := by
  have hlen : (dmPacked .msbFirst (matrixColumns s) (pixelHeight s)).bytes.length =
      pixelWidth s * s.ysize.toNat := by
    rw [dmPacked_bytes_length, matrixColumns_length, pixelHeight_div]
  obtain ⟨-, -, -, -, -, himg⟩ := hwf.1 hv
  have hbytes : (dmPacked .msbFirst (matrixColumns s) (pixelHeight s)).bytes = s.img := by
    refine List.ext_getElem?' fun i hi => ?_
    rw [hlen, himg, pixelWidth, max_self] at hi
    obtain ⟨hc, hg, hindex⟩ := index_split hi
    rw [← hindex, dmPacked_matrixColumns_byte hwf hv hc hg]
  rw [← hbytes, ← pixelWidth_div, ← pixelHeight_div, ← matrixColumns_length]
  rfl

theorem exec_packDm_matrixColumns {t : State} (ht : t.argDm = matrixColumns s) :
    exec (.packDm .msbFirst) t = .next (t.committed ⟨s.xsize.toNat, s.ysize.toNat, s.img⟩) := by
  have hvalid : DmValid t.argDm (pixelHeight s) := ht ▸ matrixColumns_valid hwf hv
  rw [exec_packDm_of_valid hvalid, ht, dmPacked_matrixColumns hwf hv]

end HeldImage

/-- Committing the image a state holds gives any other state that image. -/
theorem keepsImage_committed {s : State} (hv : s.valid = true) (t : State) :
    KeepsImage s (t.committed ⟨s.xsize.toNat, s.ysize.toNat, s.img⟩) :=
  have hsize (b : Byte) : BitVec.ofNat 8 b.toNat = b :=
    (BitVec.ofNat_toNat 8 b).trans (BitVec.setWidth_eq b)
  ⟨hsize s.xsize, hsize s.ysize, hv.symm, rfl⟩

/-- Settles O43: the errors in order, then bit c of the row is read from the byte of column c. -/
theorem dotRowReadsOneRow : Obligations.DotRowReadsOneRow := by
  refine ⟨fun r hr => encode_toNat (i := .dotRow r) (decide_eq_true hr), fun s r hwf => ⟨?_, ?_, ?_⟩⟩
  · exact fun hv => access_of_noImage hv (dotRowResult r s)
  · exact exec_dotRow_of_outside
  · intro hv hr
    exact ⟨rowBits s r, execDotRow_completes hv hr, rowBits_length s r, fun c hc =>
      ⟨_, px_in_image hwf hv hr hc, rowBits_getElem? r hc⟩⟩

/-- Settles O44: the errors in order, then bit r of the column is read from the byte of its band. -/
theorem dotColReadsOneColumn : Obligations.DotColReadsOneColumn := by
  refine ⟨fun c hc => encode_toNat (i := .dotCol c) (decide_eq_true hc), fun s c hwf => ⟨?_, ?_, ?_⟩⟩
  · exact fun hv => access_of_noImage hv (dotColResult c s)
  · exact exec_dotCol_of_outside
  · intro hv hc
    exact ⟨colBits s c, execDotCol_completes hv hc, colBits_length s c,
      fun r hr => colBits_bit hwf hv hr hc⟩

/-- Settles O45: the columns bit by bit, and PACK_DM.msb of them commits the held image. -/
theorem dotMatrixReadsAllColumnsAndRebuilds : Obligations.DotMatrixReadsAllColumnsAndRebuilds := by
  refine ⟨by decide, fun s hwf =>
    ⟨fun hv => access_of_noImage hv (.ok (.columns (matrixColumns s))), fun hv => ?_⟩⟩
  refine ⟨matrixColumns s, execDotMatrix_completes hv, matrixColumns_length s, fun c hc => ?_,
    fun t ht => ?_⟩
  · exact ⟨colBits s c, matrixColumns_getElem? hc, colBits_length s c,
      fun r hr => colBits_bit hwf hv hr hc⟩
  · exact ⟨_, exec_packDm_matrixColumns hwf hv ht, keepsImage_committed hv t, rfl⟩

end Sys2Proof.Machine
end

section
/-! The export EXPORT_DEF (44_export.md R201): its word, its error and the bytes it returns. -/

namespace Sys2Proof.Machine

/-- The definition is two size bytes and, under R24, the `8 * XSIZE * YSIZE` bytes of the image. -/
theorem exportBytes_length {s : State} (hwf : Memory.wf s) (hv : s.valid = true) :
    (exportBytes s).length = 2 + 8 * s.xsize.toNat * s.ysize.toNat := by
  obtain ⟨-, -, -, -, -, himg⟩ := hwf.1 hv
  rw [exportBytes, List.length_append, himg]
  rfl

/-- Settles O48: the image check first, then the two sizes and IMG, whose length R24 fixes. -/
theorem exportDefReturnsTheDefinitionBytes : Obligations.ExportDefReturnsTheDefinitionBytes := by
  refine ⟨by decide, fun s => ⟨fun hv => ?_, fun hv => ⟨?_, fun hwf => ?_⟩⟩⟩
  · exact access_of_noImage hv (.ok (.bytes (exportBytes s)))
  · exact execExportDef_completes hv
  · exact exportBytes_length hwf hv

end Sys2Proof.Machine
end

section
/-! How a command ends in an error: what it leaves unchanged and which STATUS it writes
(10_state.md R37; 60_exceptions.md R221 to R225, R230). -/

namespace Sys2Proof.Machine

/-- Settles O21: an image and a result come with the STATUS of success, so the answer is an error's,
whose frame `State.failed` is. -/
theorem failedCommandKeepsAllButStatus : Obligations.FailedCommandKeepsAllButStatus := by
  intro i s t h hne
  cases exec_answers h with
  | committed | completed => exact absurd rfl hne
  | failed e => rfl

/-- The STATUS a command leaves is that of success or of an error of its own tables. -/
theorem exec_status_mem {i : Instr} {s t : State} (h : exec i s = .next t) :
    t.status ∈ statusOk :: (reportable i).map statusOf := by
  cases exec_answers h with
  | committed | completed => exact List.mem_cons_self
  | failed e he => exact List.mem_cons_of_mem _ (List.mem_map_of_mem he)

/-- Settles O23: each listed word is the STATUS of the table's error at its place. -/
theorem eachCommandReportsOnlyItsErrors : Obligations.EachCommandReportsOnlyItsErrors := by
  intro i s t h
  have hmem := exec_status_mem h
  cases i <;> exact hmem

end Sys2Proof.Machine
end

section
/-! What every action answers, what becomes of the held image, and the constructions after a reset
(70_reset_and_hazards.md R260, R262, R270, R272, R277). -/

namespace Sys2Proof.Machine

theorem construct_total (r : Except Err Image) (s : State) : ∃ t, construct r s = .next t := by
  cases r <;> exact ⟨_, rfl⟩

theorem access_total (r : Except Err Result) (s : State) : ∃ t, access r s = .next t := by
  cases hv : s.valid with
  | false => exact ⟨_, access_of_noImage hv r⟩
  | true =>
    cases r with
    | ok v => exact ⟨_, access_ok hv⟩
    | error e => exact ⟨_, access_error hv e⟩

/-- Every command ends in a next state: its error is one too (R230, R277). -/
theorem exec_total (i : Instr) (s : State) : ∃ t, exec i s = .next t := by
  cases i
  case newZero | newRaw | decodeRaster | packDm => exact construct_total _ s
  case dotRow | dotCol => exact access_total _ s
  case dotMatrix => exact access_total (.ok (.columns (matrixColumns s))) s
  case exportDef => exact access_total (.ok (.bytes (exportBytes s))) s

theorem performAction_command_total (w : Word) (s : State) :
    ∃ t, performAction (.command w) s = .next t ∧ KeepsOperands s t := by
  cases hd : decode w with
  | error e => exact ⟨_, performAction_command_error hd s, rfl, rfl, rfl, rfl, rfl, rfl⟩
  | ok i =>
    obtain ⟨t, ht⟩ := exec_total i s
    exact ⟨t, (performAction_command_ok hd s).trans ht, commandsKeepOperandRegisters i s t ht⟩

/-- Settles O13: the step performs the first action of the inbox, and performing a legal word is `exec`. -/
theorem stepRunsTheDecodedCommand : Obligations.StepRunsTheDecodedCommand := by
  intro s w rest i hs hd
  rw [step_of_inbox hs, performAction_command_ok hd]

/-- Settles O17: a legal word ends as its command does, an illegal one in IllegalCommand. -/
theorem everyCommandCompletesInOneStep : Obligations.EveryCommandCompletesInOneStep := by
  intro s w rest hs
  rw [step_of_inbox hs]
  exact performAction_command_total w _

/-- The image stays, unless the action is a reset or a construction that commits another (R26). -/
theorem performAction_image {a : HostAction} {s t : State} (h : performAction a s = .next t) :
    KeepsImage s t ∨ a = .reset ∨
      ∃ w i im, a = .command w ∧ decode w = .ok i ∧ constructs i = true ∧ t = s.committed im := by
  rcases performAction_next h with ⟨v, -, rfl⟩ | ⟨v, -, rfl⟩ | ⟨b, -, -, rfl⟩ | ⟨m, -, -, rfl⟩ |
    ⟨w, e, -, -, rfl⟩ | ⟨w, i, ha, hd, he⟩ | ⟨item, v, -, -, rfl⟩ | ⟨ha, -⟩
  case inr.inr.inr.inr.inr.inl =>
    rcases exec_next he with ⟨hi, im, ht⟩ | ⟨-, -, r, rfl⟩ | ⟨e, rfl⟩
    · exact .inr (.inr ⟨w, i, im, ha, hd, hi, ht⟩)
    · exact .inl ⟨rfl, rfl, rfl, rfl⟩
    · exact .inl ⟨rfl, rfl, rfl, rfl⟩
  case inr.inr.inr.inr.inr.inr.inr => exact .inr (.inl ha)
  all_goals exact .inl ⟨rfl, rfl, rfl, rfl⟩

/-- The same of a step; an idle one keeps the image too. -/
theorem step_image {s t : State} (h : step s = .next t) :
    KeepsImage s t ∨ (∃ rest, s.inbox = .reset :: rest) ∨
      ∃ w rest i im, s.inbox = .command w :: rest ∧ decode w = .ok i ∧ constructs i = true ∧
        t = State.committed im { s with inbox := rest } := by
  rcases step_next h with ⟨-, rfl⟩ | ⟨a, rest, hs, ha⟩
  · exact .inl ⟨rfl, rfl, rfl, rfl⟩
  · rcases performAction_image ha with hkeep | rfl | ⟨w, i, im, rfl, hd, hi, ht⟩
    · exact .inl hkeep
    · exact .inr (.inl ⟨rest, hs⟩)
    · exact .inr (.inr ⟨w, rest, i, im, hs, hd, hi, ht⟩)

/-- Settles O2: of the three things a step can do to the image only a reset clears VALID, since a commit
sets it. -/
theorem resetRestoresEveryItemAndAloneClearsValid :
    Obligations.ResetRestoresEveryItemAndAloneClearsValid := by
  refine ⟨fun s rest hs => ⟨_, step_of_inbox hs, rfl, rfl, rfl, rfl, rfl, rfl, rfl, rfl, rfl, rfl, rfl,
    rfl⟩, fun s t h hs ht => ?_⟩
  rcases step_image h with ⟨-, -, hvalid, -⟩ | hreset | ⟨w, rest, i, im, -, -, -, rfl⟩
  · exact absurd (hvalid.symm.trans ht) (by simp [hs])
  · exact hreset
  · exact absurd ht (by simp)

theorem step_idle {s : State} (h : s.inbox = []) : step s = .next s := by
  rw [step, takeAction, h]

/-- Settles O6: a committed image comes with the STATUS of success. -/
theorem imageStaysUntilConstructionOrReset : Obligations.ImageStaysUntilConstructionOrReset := by
  refine ⟨fun s => step_idle, fun s t h => ?_⟩
  rcases step_image h with hkeep | hreset | ⟨w, rest, i, im, hs, hd, hi, rfl⟩
  · exact .inl hkeep
  · exact .inr (.inl hreset)
  · exact .inr (.inr ⟨w, rest, i, hs, hd, hi, rfl⟩)

/-- Settles O49: zero dimensions, no signature and no columns are each the first check to fail. -/
theorem constructionsFailOnResetOperands : Obligations.ConstructionsFailOnResetOperands := by
  intro s hx hy hbytes hdm
  have hdims : checkDims s.argX.toNat s.argY.toNat = some (dimensionError 1#8) := by
    rw [hx]
    exact checkDims_of_x (.inl Nat.one_pos)
  have hheader : rasterHeaderError s.argBytes = some (formatError 1#8) := by
    rw [hbytes]
    exact rasterHeaderError_of_noSignature (by simp)
  have hmatrix : dmStructure s.argDm = some (dimensionError 1#8) := by
    rw [hdm]
    rfl
  exact ⟨exec_newZero_of_error hdims, exec_newRaw_of_dims hdims, exec_decodeRaster_of_header hheader,
    fun m => exec_packDm_of_structure m hmatrix⟩

end Sys2Proof.Machine
end

section
/-! Runs: where a run ends, what is observed of it, and the machine's steps behind it
(70_reset_and_hazards.md R271, R277, R278). -/

namespace Sys2Proof.Machine

/-- A step that takes an action goes on with the rest of the inbox, or refuses: nothing faults. -/
theorem step_cons_cases (a : HostAction) (rest : List HostAction) (s : State) :
    (∃ t, step { s with inbox := a :: rest } = .next t ∧ t.inbox = rest) ∨
      ∃ r, step { s with inbox := a :: rest } = .refused r := by
  cases h : step { s with inbox := a :: rest } with
  | next t => exact .inl ⟨t, rfl, performAction_inbox ((step_cons a rest s).symm.trans h)⟩
  | fault f => cases f
  | refused r => exact .inr ⟨r, rfl⟩

section
variable {a : HostAction} {rest : List HostAction} {s s' t : State} {o : Observation}

/-- What a step does to the items of R20 depends on them and on the action taken, not on what waits
behind it. -/
theorem itemsOf_step (a : HostAction) (rest rest' : List HostAction) (h : s.items = s'.items) :
    itemsOf (step { s' with inbox := a :: rest' }) = itemsOf (step { s with inbox := a :: rest }) :=
  performAction_items a h

theorem next_of_itemsOf_next {out : StepOutcome} (h : itemsOf out = .next t) :
    ∃ t', out = .next t' ∧ t'.items = t := by
  cases out with
  | next t' => exact ⟨t', rfl, Host.Outcome.next.inj h⟩
  | fault f => cases f
  | refused r => cases h

theorem refused_of_itemsOf_refused {out : StepOutcome} {r : Refusal} (h : itemsOf out = .refused r) :
    out = .refused r := by
  cases out with
  | next t' => cases h
  | fault f => cases f
  | refused r' => exact h

theorem step_next_of_items (rest' : List HostAction) (hs : s.items = s'.items)
    (h : step { s with inbox := a :: rest } = .next t) :
    ∃ t', step { s' with inbox := a :: rest' } = .next t' ∧ t'.items = t.items :=
  next_of_itemsOf_next (by rw [itemsOf_step a rest rest' hs, h, itemsOf_next])

theorem step_refused_of_items {r : Refusal} (rest' : List HostAction) (hs : s.items = s'.items)
    (h : step { s with inbox := a :: rest } = .refused r) :
    step { s' with inbox := a :: rest' } = .refused r :=
  refused_of_itemsOf_refused (by rw [itemsOf_step a rest rest' hs, h]; rfl)

theorem after_of_items (a : HostAction) (h : s.items = s'.items) :
    Observation.after a s = Observation.after a s' := by
  funext o
  rw [Observation.after, Observation.after, observed_of_items_eq h]

/-- What is observed depends on the items of R20 alone. -/
theorem observeFrom_of_items (actions : List HostAction) (h : s.items = s'.items) :
    observeFrom actions s = observeFrom actions s' := by
  induction actions generalizing s s' with
  | nil => rw [observeFrom_nil, observeFrom_nil, h]
  | cons a rest ih =>
    rcases step_cons_cases a rest s with ⟨t, ht, -⟩ | ⟨r, hr⟩
    · obtain ⟨t', ht', htt'⟩ := step_next_of_items rest h ht
      rw [observeFrom_cons_next ht, observeFrom_cons_next ht', ← ih htt'.symm, after_of_items a htt']
    · rw [observeFrom_cons_refused hr, observeFrom_cons_refused (step_refused_of_items rest h hr)]

theorem observeFrom_cons_some (h : observeFrom (a :: rest) s = some o) :
    ∃ t o', step { s with inbox := a :: rest } = .next t ∧ observeFrom rest t = some o' ∧
      o'.after a t = o := by
  rcases step_cons_cases a rest s with ⟨t, ht, -⟩ | ⟨r, hr⟩
  · rw [observeFrom_cons_next ht, Option.map_eq_some_iff] at h
    obtain ⟨o', ho', hafter⟩ := h
    exact ⟨t, o', ht, ho', hafter⟩
  · rw [observeFrom_cons_refused hr] at h
    cases h

theorem after_afterCommands_length :
    (o.after a t).afterCommands.length = o.afterCommands.length + if a.isCommand then 1 else 0 := by
  rw [Observation.after]
  cases a.isCommand <;> rfl

end

/-! ### Actions that no state refuses -/

theorem hostValue_register {item : HostItem} (h : ∀ i, item ≠ .imgByte i) (s : State) :
    ∃ v, hostValue item s = .ok v := by
  cases item
  case imgByte i => exact absurd rfl (h i)
  all_goals exact ⟨_, rfl⟩

theorem performAction_of_neverRefused {a : HostAction} (h : NeverRefused a) (s : State) :
    ∃ t, performAction a s = .next t := by
  cases a with
  | writeArgX v => exact ⟨_, rfl⟩
  | writeArgY v => exact ⟨_, rfl⟩
  | writeArgBytes b => exact ⟨_, hostWriteArgBytes_within h s⟩
  | writeArgDm m => exact ⟨_, hostWriteArgDm_within h s⟩
  | command w =>
    obtain ⟨t, ht, -⟩ := performAction_command_total w s
    exact ⟨t, ht⟩
  | read item =>
    obtain ⟨v, hv⟩ := hostValue_register h s
    exact ⟨_, hostRead_of_value hv⟩
  | reset => exact ⟨_, rfl⟩

/-- Actions that no state refuses are observed once after each command among them. -/
theorem observeFrom_of_neverRefused {actions : List HostAction} (h : ∀ a ∈ actions, NeverRefused a)
    (s : State) : ∃ o, observeFrom actions s = some o ∧
      o.afterCommands.length = (actions.filter HostAction.isCommand).length := by
  induction actions generalizing s with
  | nil => exact ⟨_, observeFrom_nil s, rfl⟩
  | cons a rest ih =>
    obtain ⟨ha, hrest⟩ := List.forall_mem_cons.mp h
    obtain ⟨t, ht⟩ := performAction_of_neverRefused ha { s with inbox := rest }
    obtain ⟨o, ho, hlen⟩ := ih hrest t
    refine ⟨o.after a t, by rw [observeFrom_cons_next ((step_cons a rest s).trans ht), ho]; rfl, ?_⟩
    rw [after_afterCommands_length, hlen, List.filter_cons]
    cases a.isCommand <;> rfl

/-! ### The end of a run -/

theorem any_isCommand_eq_false {actions : List HostAction} :
    actions.any HostAction.isCommand = false ↔ ∀ a ∈ actions, a.isCommand = false := by
  simp

/-- A sequence is its run followed by actions none of which is a command. -/
theorem uptoLastCommand_append_rest (actions : List HostAction) :
    ∃ later, uptoLastCommand actions ++ later = actions ∧ ∀ a ∈ later, a.isCommand = false := by
  induction actions with
  | nil => exact ⟨[], rfl, nofun⟩
  | cons a rest ih =>
    cases h : (a :: rest).any HostAction.isCommand with
    | false => exact ⟨a :: rest, by rw [uptoLastCommand_of_none h]; rfl, any_isCommand_eq_false.mp h⟩
    | true =>
      obtain ⟨later, heq, hlater⟩ := ih
      exact ⟨later, by rw [uptoLastCommand_cons h, List.cons_append, heq], hlater⟩

theorem uptoLastCommand_append_command (before : List HostAction) (w : Word) {later : List HostAction}
    (h : ∀ a ∈ later, a.isCommand = false) :
    uptoLastCommand (before ++ .command w :: later) = before ++ [.command w] := by
  induction before with
  | nil =>
    rw [List.nil_append, uptoLastCommand_cons (by simp [HostAction.isCommand]),
      uptoLastCommand_of_none (any_isCommand_eq_false.mpr h)]
    rfl
  | cons a before ih =>
    rw [List.cons_append, uptoLastCommand_cons (by simp [HostAction.isCommand]), ih]
    rfl

/-- Settles O18: a run is part of its sequence and holds all its commands. -/
theorem runObservesEveryCommand : Obligations.RunObservesEveryCommand := by
  refine ⟨fun actions s h => observeFrom_of_neverRefused h s, fun actions h => ?_⟩
  obtain ⟨later, heq, hlater⟩ := uptoLastCommand_append_rest actions
  have hrun : ∀ a ∈ uptoLastCommand actions, NeverRefused a := fun a ha =>
    h a (heq ▸ List.mem_append_left later ha)
  have hnone : later.filter HostAction.isCommand = [] :=
    List.filter_eq_nil_iff.mpr fun a ha => by simp [hlater a ha]
  have hcommands :
      actions.filter HostAction.isCommand = (uptoLastCommand actions).filter HostAction.isCommand := by
    rw [← heq, List.filter_append, hnone, List.append_nil, heq]
  rw [hcommands]
  exact observeFrom_of_neverRefused hrun State.reset

/-- Settles O50: the run is the sequence cut after its last command. -/
theorem runEndsWithItsLastCommand : Obligations.RunEndsWithItsLastCommand :=
  ⟨fun before w later h => by rw [observeRun, uptoLastCommand_append_command before w h],
    fun actions h => by
      rw [observeRun, uptoLastCommand_of_none (any_isCommand_eq_false.mpr h), observeFrom_nil,
        State.items_reset]⟩

/-! ### A run and what comes after it -/

/-- The observation of actions observed as `o` followed by actions observed as `o'`
(`observeFrom_append`). -/
def Observation.followedBy (o o' : Observation) : Observation :=
  ⟨o.afterCommands ++ o'.afterCommands, o'.final⟩

theorem after_followedBy (a : HostAction) (t : State) (o o' : Observation) :
    (o.followedBy o').after a t = (o.after a t).followedBy o' := by
  cases h : a.isCommand <;> simp [Observation.after, Observation.followedBy, h]

/-- What comes after observed actions is observed from their final state. -/
theorem observeFrom_append {actions : List HostAction} {s : State} {o : Observation}
    (h : observeFrom actions s = some o) (more : List HostAction) :
    observeFrom (actions ++ more) s = (observeFrom more o.final).map o.followedBy := by
  induction actions generalizing s o with
  | nil =>
    obtain rfl : ⟨[], s.items⟩ = o := Option.some.inj h
    rw [List.nil_append, observeFrom_of_items more (State.items_items s).symm]
    exact Option.map_id'.symm
  | cons a rest ih =>
    obtain ⟨t, o', ht, ho', rfl⟩ := observeFrom_cons_some h
    obtain ⟨t', ht', htt'⟩ := step_next_of_items (rest ++ more) rfl ht
    calc observeFrom (a :: (rest ++ more)) s
        = (observeFrom (rest ++ more) t).map (Observation.after a t) := by
          rw [observeFrom_cons_next ht', after_of_items a htt', observeFrom_of_items _ htt']
      _ = ((observeFrom more o'.final).map o'.followedBy).map (Observation.after a t) := by rw [ih ho']
      _ = (observeFrom more o'.final).map (o'.after a t).followedBy := by
          rw [Option.map_map]
          exact congrArg (Option.map · _) (funext (after_followedBy a t o'))

/-- Settles O51: one action more is a step of the final state, observed by itself. -/
theorem observationGrowsByOneAction : Obligations.ObservationGrowsByOneAction := by
  intro actions a s o h
  rw [observeFrom_append h]
  refine ⟨fun t ht => ?_, fun r hr => ?_⟩
  · rw [observeFrom_cons_next ht, observeFrom_nil]
    rfl
  · rw [observeFrom_cons_refused hr]
    rfl

/-- As many steps of the machine as there are actions waiting use them up and reach the observed items, or
one of them refuses, and then nothing is observed. -/
theorem run_observed_or_refused (actions : List HostAction) (s : State) :
    (∃ t o, Sys2Proof.core.run actions.length { s with inbox := actions } = .next t ∧ t.inbox = [] ∧
      observeFrom actions s = some o ∧ o.final = t.items) ∨
    ∃ r : Refusal, Sys2Proof.core.run actions.length { s with inbox := actions } = .refused r ∧
      observeFrom actions s = none := by
  induction actions generalizing s with
  | nil => exact .inl ⟨_, _, rfl, rfl, rfl, rfl⟩
  | cons a rest ih =>
    rcases step_cons_cases a rest s with ⟨t, ht, rfl⟩ | ⟨r, hr⟩
    · rw [List.length_cons, coreRun_next ht, observeFrom_cons_next ht]
      rcases ih t with ⟨t', o, hrun, hinbox, ho, hfinal⟩ | ⟨r, hrun, ho⟩
      · exact .inl ⟨t', o.after a t, hrun, hinbox, by rw [ho]; rfl, hfinal⟩
      · exact .inr ⟨r, hrun, by rw [ho]; rfl⟩
    · exact .inr ⟨r, coreRun_refused hr, observeFrom_cons_refused hr⟩

/-- Settles O52: the run of the reset state is observed or refused. -/
theorem runIsTheMachinesSteps : Obligations.RunIsTheMachinesSteps := by
  intro actions run after
  rcases run_observed_or_refused run State.reset with ⟨t, o, hrun, hinbox, ho, hfinal⟩ | ⟨r, hrun, ho⟩
  · refine ⟨fun o' ho' => ?_, fun hnone => ?_⟩
    · obtain rfl : o = o' := Option.some.inj (ho.symm.trans ho')
      exact ⟨t, hrun, hfinal, hinbox⟩
    · cases ho.symm.trans hnone
  · refine ⟨fun o' ho' => ?_, fun _ => ⟨r, hrun⟩⟩
    cases ho.symm.trans ho'

end Sys2Proof.Machine
end
